-- ==== Sys2Proof/Word.lean ====
section
/-! DEFINITION. The word types of the CMU: memory bytes and the 32-bit registers (REG_W = 32, 00_scope.md R6). -/

namespace Sys2Proof

/-- One byte of the bus-master memory (20_memory.md R70), and one 8-bit pixel channel (00_scope.md R13). -/
abbrev Byte := BitVec 8

/-- One 32-bit register, command word or pixel word (00_scope.md R6, 20_memory.md R72). -/
abbrev Word := BitVec 32

end Sys2Proof
end

