-- ==== Sys2Proof/Syntax.lean ====
section
/-! DEFINITION. The command words of the CMU, one constructor per row of spec/opcode_table.json (30_encoding.md R113).
The command word has no operands (R109). The constructors keep the bits the decoder ignores (`sel` of COPY, BLUR and OP.RSV,
`ign` of every form), because CMD reads back all 32 bits of the accepted word (10_state.md R29, 30_encoding.md R105). -/

namespace Sys2Proof

/-- A command. The rows of the three unrecognized forms that the table splits in two (their mask needs two rows) are two
constructors each, `…Lo` and `…Hi` (log 14). -/
inductive Instr where
  /-- COPY, OP = 0x0, SEL ignored (40_command.md R136). -/
  | copy (sel : BitVec 4) (ign : BitVec 24)
  /-- CM.ID, word 0x01 (41_color_matrix.md R155). -/
  | cmId (ign : BitVec 24)
  /-- CM.GRAY, word 0x11 (41_color_matrix.md R156). -/
  | cmGray (ign : BitVec 24)
  /-- CM.BIN, word 0x21 (41_color_matrix.md R157). -/
  | cmBin (ign : BitVec 24)
  /-- CM.USER, word 0x31 (41_color_matrix.md R158). -/
  | cmUser (ign : BitVec 24)
  /-- CM.RSV, OP = 0x1, SEL in 0x4..0x7 (41_color_matrix.md R159). -/
  | cmRsvLo (sel : BitVec 4) (ign : BitVec 24)
  /-- CM.RSV, OP = 0x1, SEL in 0x8..0xF (41_color_matrix.md R159). -/
  | cmRsvHi (sel : BitVec 4) (ign : BitVec 24)
  /-- FIR.ID, word 0x02 (42_fir_convolver.md R175). -/
  | firId (ign : BitVec 24)
  /-- FIR.BLUR, word 0x12 (42_fir_convolver.md R177). -/
  | firBlur (ign : BitVec 24)
  /-- FIR.EDGE, word 0x22 (42_fir_convolver.md R178). -/
  | firEdge (ign : BitVec 24)
  /-- FIR.USER, word 0x32 (42_fir_convolver.md R176). -/
  | firUser (ign : BitVec 24)
  /-- FIR.RSV, OP = 0x2, SEL in 0x4..0x7 (42_fir_convolver.md R179). -/
  | firRsvLo (sel : BitVec 4) (ign : BitVec 24)
  /-- FIR.RSV, OP = 0x2, SEL in 0x8..0xF (42_fir_convolver.md R179). -/
  | firRsvHi (sel : BitVec 4) (ign : BitVec 24)
  /-- BLUR, OP = 0x3, SEL ignored (43_separable_blur.md R194). -/
  | blur (sel : BitVec 4) (ign : BitVec 24)
  /-- OP.RSV, OP in 0x4..0x7, SEL ignored (40_command.md R137). -/
  | opRsvLo (op sel : BitVec 4) (ign : BitVec 24)
  /-- OP.RSV, OP in 0x8..0xF, SEL ignored (40_command.md R137). -/
  | opRsvHi (op sel : BitVec 4) (ign : BitVec 24)
deriving DecidableEq, Repr

end Sys2Proof
end

