-- ==== Sys2Proof/WellFormed.lean ====
section
/-! DEFINITION. Which terms of `Instr` stand for a command word: an unrecognized form's selector lies in the range its row of
the opcode table gives it (30_encoding.md R113). Every other field is as wide as its bits, so it is always legal. -/

namespace Sys2Proof

/-- The selector ranges of 30_encoding.md R113. -/
def Instr.wellFormed : Instr → Bool
  | .copy _ _ => true
  | .cmId _ => true
  | .cmGray _ => true
  | .cmBin _ => true
  | .cmUser _ => true
  | .cmRsvLo sel _ => decide (4 ≤ sel.toNat ∧ sel.toNat < 8)
  | .cmRsvHi sel _ => decide (8 ≤ sel.toNat)
  | .firId _ => true
  | .firBlur _ => true
  | .firEdge _ => true
  | .firUser _ => true
  | .firRsvLo sel _ => decide (4 ≤ sel.toNat ∧ sel.toNat < 8)
  | .firRsvHi sel _ => decide (8 ≤ sel.toNat)
  | .blur _ _ => true
  | .opRsvLo op _ _ => decide (4 ≤ op.toNat ∧ op.toNat < 8)
  | .opRsvHi op _ _ => decide (8 ≤ op.toNat)

/-- `i` stands for a command word. -/
abbrev Instr.WellFormed (i : Instr) : Prop := i.wellFormed = true

end Sys2Proof
end

