-- ==== Sys2Proof/Decode.lean ====
section
/-! DEFINITION. The decoder (30_encoding.md R106), the encoder written from the same tables (R100 to R103), and the opcode
map as match and mask pairs (R113). -/

namespace Sys2Proof

/-- OP, bits [3:0] of the command word (30_encoding.md R100). -/
def opField (w : Word) : BitVec 4 := w.extractLsb' 0 4

/-- SEL, bits [7:4] of the command word (30_encoding.md R100). -/
def selField (w : Word) : BitVec 4 := w.extractLsb' 4 4

/-- IGN, bits [31:8] of the command word (30_encoding.md R100, R105). -/
def ignField (w : Word) : BitVec 24 := w.extractLsb' 8 24

/-- SEL when OP = 0x1 (30_encoding.md R102). -/
def decodeCm (sel : BitVec 4) (ign : BitVec 24) : Instr :=
  if sel = 0x0#4 then .cmId ign
  else if sel = 0x1#4 then .cmGray ign
  else if sel = 0x2#4 then .cmBin ign
  else if sel = 0x3#4 then .cmUser ign
  else if sel.toNat < 8 then .cmRsvLo sel ign
  else .cmRsvHi sel ign

/-- SEL when OP = 0x2 (30_encoding.md R103). -/
def decodeFir (sel : BitVec 4) (ign : BitVec 24) : Instr :=
  if sel = 0x0#4 then .firId ign
  else if sel = 0x1#4 then .firBlur ign
  else if sel = 0x2#4 then .firEdge ign
  else if sel = 0x3#4 then .firUser ign
  else if sel.toNat < 8 then .firRsvLo sel ign
  else .firRsvHi sel ign

/-- The decode function, total on every 32-bit word (30_encoding.md R101, R106, R107). -/
def decode (w : Word) : Instr :=
  if opField w = 0x0#4 then .copy (selField w) (ignField w)
  else if opField w = 0x1#4 then decodeCm (selField w) (ignField w)
  else if opField w = 0x2#4 then decodeFir (selField w) (ignField w)
  else if opField w = 0x3#4 then .blur (selField w) (ignField w)
  else if (opField w).toNat < 8 then .opRsvLo (opField w) (selField w) (ignField w)
  else .opRsvHi (opField w) (selField w) (ignField w)

/-- Why bytes are not a command. No 32-bit word is rejected (30_encoding.md R107), so the only reason is that fewer than four
bytes are there (R110: a decoder always reads exactly one 32-bit word). -/
inductive DecodeError where
  /-- Fewer than the four bytes of one command word. -/
  | truncated
deriving DecidableEq, Repr

/-- The four byte lanes of a register access, lane 0 (bits [7:0]) first (20_memory.md R74). -/
def byteLanes (w : Word) : List Byte :=
  [w.extractLsb' 0 8, w.extractLsb' 8 8, w.extractLsb' 16 8, w.extractLsb' 24 8]

/-- The 32-bit value of four byte lanes, little-endian (00_scope.md R9, 20_memory.md R74). -/
def wordOfLanes (b0 b1 b2 b3 : Byte) : Word := b3 ++ b2 ++ b1 ++ b0

/-- Decoding a stream of bytes: one command and the bytes after it. -/
def decodeBytes : List Byte → Except DecodeError (Instr × List Byte)
  | b0 :: b1 :: b2 :: b3 :: rest => .ok (decode (wordOfLanes b0 b1 b2 b3), rest)
  | _ => .error .truncated

/-- One command word from its fields (30_encoding.md R100). -/
def commandWord (op sel : BitVec 4) (ign : BitVec 24) : Word := ign ++ sel ++ op

/-- The word of a command (30_encoding.md R101, R102, R103). -/
def encode : Instr → Word
  | .copy sel ign => commandWord 0x0#4 sel ign
  | .cmId ign => commandWord 0x1#4 0x0#4 ign
  | .cmGray ign => commandWord 0x1#4 0x1#4 ign
  | .cmBin ign => commandWord 0x1#4 0x2#4 ign
  | .cmUser ign => commandWord 0x1#4 0x3#4 ign
  | .cmRsvLo sel ign => commandWord 0x1#4 sel ign
  | .cmRsvHi sel ign => commandWord 0x1#4 sel ign
  | .firId ign => commandWord 0x2#4 0x0#4 ign
  | .firBlur ign => commandWord 0x2#4 0x1#4 ign
  | .firEdge ign => commandWord 0x2#4 0x2#4 ign
  | .firUser ign => commandWord 0x2#4 0x3#4 ign
  | .firRsvLo sel ign => commandWord 0x2#4 sel ign
  | .firRsvHi sel ign => commandWord 0x2#4 sel ign
  | .blur sel ign => commandWord 0x3#4 sel ign
  | .opRsvLo op sel ign => commandWord op sel ign
  | .opRsvHi op sel ign => commandWord op sel ign

/-- One row of the opcode map: a word is the row's when it agrees with `pattern` on the bits of `mask`. -/
structure OpcodeRow where
  pattern : Word
  mask : Word
deriving DecidableEq, Repr

/-- The word `w` matches the row `r`. -/
def rowMatches (w : Word) (r : OpcodeRow) : Bool := w &&& r.mask == r.pattern

/-- The rows of the opcode map, in its order (30_encoding.md R113). -/
def opcodeRows : List OpcodeRow :=
  [⟨0x00#32, 0x0F#32⟩, ⟨0x01#32, 0xFF#32⟩, ⟨0x11#32, 0xFF#32⟩, ⟨0x21#32, 0xFF#32⟩, ⟨0x31#32, 0xFF#32⟩, ⟨0x41#32, 0xCF#32⟩,
   ⟨0x81#32, 0x8F#32⟩, ⟨0x02#32, 0xFF#32⟩, ⟨0x12#32, 0xFF#32⟩, ⟨0x22#32, 0xFF#32⟩, ⟨0x32#32, 0xFF#32⟩, ⟨0x42#32, 0xCF#32⟩,
   ⟨0x82#32, 0x8F#32⟩, ⟨0x03#32, 0x0F#32⟩, ⟨0x04#32, 0x0C#32⟩, ⟨0x08#32, 0x08#32⟩]

/-- The row of `opcodeRows` that a command belongs to (30_encoding.md R113). -/
def opcodeRow : Instr → OpcodeRow
  | .copy _ _ => ⟨0x00#32, 0x0F#32⟩
  | .cmId _ => ⟨0x01#32, 0xFF#32⟩
  | .cmGray _ => ⟨0x11#32, 0xFF#32⟩
  | .cmBin _ => ⟨0x21#32, 0xFF#32⟩
  | .cmUser _ => ⟨0x31#32, 0xFF#32⟩
  | .cmRsvLo _ _ => ⟨0x41#32, 0xCF#32⟩
  | .cmRsvHi _ _ => ⟨0x81#32, 0x8F#32⟩
  | .firId _ => ⟨0x02#32, 0xFF#32⟩
  | .firBlur _ => ⟨0x12#32, 0xFF#32⟩
  | .firEdge _ => ⟨0x22#32, 0xFF#32⟩
  | .firUser _ => ⟨0x32#32, 0xFF#32⟩
  | .firRsvLo _ _ => ⟨0x42#32, 0xCF#32⟩
  | .firRsvHi _ _ => ⟨0x82#32, 0x8F#32⟩
  | .blur _ _ => ⟨0x03#32, 0x0F#32⟩
  | .opRsvLo _ _ _ => ⟨0x04#32, 0x0C#32⟩
  | .opRsvHi _ _ _ => ⟨0x08#32, 0x08#32⟩

/-- The instruction the decoder reads from a table word: the low `nbits` bits of `w`, every bit above them 0, laid out as the
byte lanes of one register write and given to the decoder. A value that does not fit one 32-bit command word is refused. -/
def decodeTableWord (nbits w : Nat) : Option Instr :=
  if w % 2 ^ nbits < 2 ^ 32 then
    match decodeBytes (byteLanes (BitVec.ofNat 32 (w % 2 ^ nbits))) with
    | .ok (i, _) => some i
    | .error _ => none
  else none

end Sys2Proof
end

