-- ==== Sys2Proof/Config.lean ====
section
/-! DEFINITION. What this hardware fixes (00_scope.md R6) and the free values, which the spec leaves to a draw
(93_implementation_defined.md U10 to U12, U23). A free value is an opaque constant: nothing can evaluate it, so a claim
proved about the machine holds whatever it is. The preset tables LUMA_W, BLUR3_K and BLUR_W stand in Machine/Presets.lean. -/

namespace Sys2Proof.Config

/-- ID_VALUE (00_scope.md R6, 10_state.md R22): "CMU" and version 1. -/
def idValue : Word := 0x434D5501#32

/-- ADDR_W = 32: the bus-master memory has the bytes 0 .. 2^32 - 1 (20_memory.md R70). -/
def addrSpace : Nat := 2 ^ 32

/-- The register window is 4 KiB (20_memory.md R70). -/
def windowSize : Nat := 4096

/-- The raw Q16.16 pattern of 1.0 (00_scope.md R14). -/
def one : Int := 65536

/-- BLUR_NMAX (00_scope.md R6): the largest half-width of the separable blur. -/
def blurNMax : Nat := 16

/-- What a byte of memory that nothing has written reads as. DESIGN CHOICE, unsafe (log 4): the spec gives memory no
contents. -/
def unwrittenByte : Byte := 0#8

/-- The free byte that draw number `n` leaves at address `a` (log 8; 93 U10, U11, U12). No body: no value is chosen. -/
opaque freeByte (n a : Nat) : Byte

/-- The free choice, at draw number `n`, of which of the bytes stored at address `a` the bus master sees when the host has
not made its store visible (log 9; 93 U23). No body: no value is chosen. -/
opaque freePick (n a : Nat) : Nat

end Sys2Proof.Config
end

