-- ==== Sys2Proof/Machine/Arith.lean ====
section
/-! DEFINITION. The arithmetic helpers every engine uses (00_scope.md R7, R11, R14): exact integers, one rounding, one
clamp. -/

namespace Sys2Proof.Machine

/-- `s32` (00_scope.md R7, R14): a 32-bit pattern read as a two's-complement integer. -/
def s32 (w : Word) : Int := w.toInt

/-- `clamp8` (00_scope.md R11). -/
def clamp8 (v : Int) : Int := min (max v 0) 255

/-- `floordiv` (00_scope.md R11), for d > 0: Lean's `/` on Int with a positive divisor rounds down. -/
def floordiv (n d : Int) : Int := n / d

/-- `rdiv` (00_scope.md R11): nearest integer to n/d, halves up. The spec gives it for d ≠ 0 only, and no rule divides by 0
(log 15). -/
def rdiv (n d : Int) : Int :=
  if 0 < d then floordiv (2 * n + d) (2 * d) else floordiv (2 * (-n) + (-d)) (2 * (-d))

/-- `chan` (00_scope.md R11): one channel result as the byte it is stored in. -/
def chan (num den : Int) : Byte := BitVec.ofInt 8 (clamp8 (rdiv num den))

/-- `ceil16` (00_scope.md R11): the ceiling of a positive raw Q16.16 value. -/
def ceil16 (r : Int) : Int := floordiv (r + 65535) 65536

/-- The sum of `f` over a list of indices. -/
def sumOver {α : Type} (l : List α) (f : α → Int) : Int := (l.map f).sum

end Sys2Proof.Machine
end

