-- ==== Sys2Proof/Machine/State.lean ====
section
/-! DEFINITION. The state of the CMU as plain data (10_state.md R20, R40, R45), the memory it masters (20_memory.md R70), the
platform's parameters (00_scope.md R6), the HOST agent's program and the interleaving of the agents (00_scope.md R15), the
reasons a step can stop, and the state after reset (10_state.md R44, 70_reset_and_hazards.md R240). -/

namespace Sys2Proof.Machine

/-- The bus-master memory: (address, byte) pairs with strictly rising addresses and no entry equal to
`Config.unwrittenByte`, which is what an unlisted address reads as (20_memory.md R70; log 4). -/
abbrev Memory := List Host.Cell

/-- The width of a bus transaction of the host. -/
inductive AccessSize where
  | byte
  | half
  | word
deriving DecidableEq, Repr

/-- A range of addresses of the platform: `size` bytes from `base`. -/
structure Region where
  base : Nat
  size : Nat
deriving DecidableEq, Repr

/-- What the platform fixes and the spec leaves OPEN (00_scope.md R6): arguments of the model, held as plain data and changed
by no step (log 5, log 6, log 7). -/
structure Platform where
  /-- CMU_BASE: physical base address of the register window (20_memory.md R70, R79). -/
  cmuBase : Nat
  /-- CMU_IRQ: the line's number at the host's interrupt controller (60_exceptions.md R218). -/
  irqLine : Nat
  /-- MEM_OK: the addresses at which the platform admits a bus-master byte access (00_scope.md R6, R9). -/
  memory : List Region
  /-- Addresses with side effects on read or write, where no buffer may lie (20_memory.md R78). -/
  devices : List Region
deriving DecidableEq, Repr

/-- The registers of 10_state.md section 2. -/
inductive Reg where
  | id
  | ctrl
  | status
  | cmd
  | srcBase
  | dstBase
  | width
  | height
  | srcLen
  | blurRadius
  | firCfg
  | cmCoef (j : Fin 20)
  | firCoef (j : Fin 9)
  /-- Every other offset of the window (10_state.md R39). -/
  | reserved
deriving DecidableEq, Repr

/-- One statement of a host program (30_encoding.md R111). Register statements name the physical address CMU_BASE + offset;
memory statements name a bus-master address. -/
inductive HostOp where
  /-- `wr REG, imm32`, the bus transaction W (of any width, so that R76 can refuse the others). -/
  | regWrite (addr : Nat) (size : AccessSize) (data : Word)
  /-- `rd REG`, the bus transaction R. -/
  | regRead (addr : Nat) (size : AccessSize)
  /-- `poll REG, mask, val`: read until (value AND mask) = val. -/
  | poll (addr : Nat) (mask val : Word)
  /-- `mem.wr32`, and the host's narrower stores (20_memory.md R73). -/
  | memWrite (addr : Word) (size : AccessSize) (data : Word)
  /-- `mem.rd32`, and the host's narrower loads. -/
  | memRead (addr : Word) (size : AccessSize)
  /-- The host's own fence or cache clean: its earlier stores become visible to the bus master (20_memory.md R82 (a)). -/
  | fence
deriving DecidableEq, Repr

/-- The two agents (00_scope.md R15). -/
inductive Agent where
  | host
  | unit
deriving DecidableEq, Repr

/-- One choice of the interleaving: which agent moves, or that the reset input is asserted (00_scope.md R15,
70_reset_and_hazards.md R240; log 2). -/
inductive Event where
  | hostMove
  | unitMove
  | resetInput
deriving DecidableEq, Repr

/-- A byte that the host stored and has not made visible to the bus master (20_memory.md R82 (a), 93 U23; log 9). -/
structure StoreNote where
  addr : Nat
  /-- The byte that the bus master may still see there in place of the memory's. -/
  older : Byte
  /-- The byte that the host stored. -/
  stored : Byte
deriving DecidableEq, Repr

/-- The latch LAT, taken when a command is accepted (10_state.md R40, 40_command.md R131). -/
structure Latch where
  cmd : Word
  srcBase : BitVec 30
  dstBase : BitVec 30
  width : BitVec 16
  height : BitVec 16
  srcLen : Word
  blurRadius : Word
  firNorm : Bool
  cmCoef : Vector Word 20
  firCoef : Vector Word 9
  /-- MODEL's own: the notes of the host stores that were not visible to the bus master at acceptance, which alone decide what
  the command reads (20_memory.md R82 (a); log 9). -/
  unseen : List StoreNote
deriving DecidableEq, Repr

/-- The error codes a command can end with (60_exceptions.md R210). -/
inductive ErrorCode where
  | invalidBuffer
  | addrRange
  | overlap
  | busError
deriving DecidableEq, Repr

/-- The record of 10_state.md R45, the memory, the platform and the agents. -/
structure State where
  /-- CTRL.IRQ_EN (10_state.md R23). -/
  ctrlIrqEn : Bool
  /-- STATUS.BUSY (10_state.md R24). -/
  busy : Bool
  /-- STATUS.DONE (10_state.md R24). -/
  done : Bool
  /-- STATUS.ERR (10_state.md R24). -/
  err : Bool
  /-- STATUS.OVR (10_state.md R28). -/
  ovr : Bool
  /-- STATUS.ERRCODE (10_state.md R24, 60_exceptions.md R210). -/
  errcode : BitVec 4
  /-- CMD's read-back: the most recently accepted command word (10_state.md R29). -/
  lastCmd : Word
  /-- SRC_BASE[31:2] (10_state.md R30). -/
  srcBase : BitVec 30
  /-- DST_BASE[31:2] (10_state.md R31). -/
  dstBase : BitVec 30
  /-- WIDTH[15:0] (10_state.md R32). -/
  width : BitVec 16
  /-- HEIGHT[15:0] (10_state.md R33). -/
  height : BitVec 16
  /-- SRC_LEN (10_state.md R34). -/
  srcLen : Word
  /-- BLUR_RADIUS, a raw Q16.16 pattern (10_state.md R35). -/
  blurRadius : Word
  /-- FIR_CFG.NORM (10_state.md R36). -/
  firNorm : Bool
  /-- CM_COEF[0..19], raw Q16.16 patterns (10_state.md R37). -/
  cmCoef : Vector Word 20
  /-- FIR_COEF[0..8], raw Q16.16 patterns (10_state.md R38). -/
  firCoef : Vector Word 9
  /-- LAT (10_state.md R40): some exactly while busy (R45). -/
  lat : Option Latch
  /-- The bus-master memory (20_memory.md R70), in the canonical form of `Memory`. -/
  mem : Memory
  /-- The platform's parameters (00_scope.md R6). -/
  platform : Platform
  /-- MODEL's own: the statements the host has still to issue, the next one first (30_encoding.md R111; log 3). -/
  prog : List HostOp
  /-- MODEL's own: the interleaving still to come (00_scope.md R15; log 2). -/
  sched : List Event
  /-- MODEL's own: the agent whose step is being made (log 1). -/
  turn : Agent
  /-- MODEL's own: the value the host's latest read returned (30_encoding.md R111; log 10). -/
  rdata : Word
  /-- MODEL's own: a note for every byte the host stored and has not made visible to the bus master, the latest first
  (20_memory.md R82 (a), 93 U23; log 9). -/
  unseen : List StoreNote
  /-- MODEL's own: how many draws have been made, so that each draw is fresh (log 8). -/
  draws : Nat
deriving DecidableEq, Repr

/-- Why a step stops with a fault: the run is outside the contract. -/
inductive Fault where
  /-- Raised by a host store to a byte of the running command's input or output range while BUSY = 1, and by a fence that
  would land an earlier store there (20_memory.md R83, 93 U13). Safe: the spec gives such a run no result. -/
  | hostWroteBusyBuffer
  /-- Raised by the acceptance of a command, and by a completion, when an admitted byte of the input or output range has side
  effects (20_memory.md R78, 93 U15; log 7). Safe: the spec leaves the effect unspecified. -/
  | sideEffectBuffer
  /-- Raised by a host load or store that runs past byte 2^32 - 1, which does not exist (20_memory.md R70; log 12). Safe. -/
  | beyondAddressSpace
deriving DecidableEq, Repr

/-- Why a step is refused: the spec gives the access no meaning. -/
inductive Refusal where
  /-- Raised by `exec` for a command that has no meaning yet; no arm does. Safe. -/
  | notModelled (mnemonic : String)
  /-- Raised by a host register access that is not 32-bit and aligned (20_memory.md R76, 93 U14). Safe. -/
  | registerAccess
  /-- Raised by a host register access at an address outside the 4 KiB window (20_memory.md R70; log 11). Safe. -/
  | outsideWindow
  /-- Raised by a host load or store to a platform device, whose behaviour the spec does not give (log 13). Safe. -/
  | platformDevice
deriving DecidableEq, Repr

/-- Every field at the value the spec states for reset (10_state.md R44, 70_reset_and_hazards.md R240). The fields that are
not the spec's registers take the values of log 3 to log 10. -/
def State.reset : State where
  ctrlIrqEn := false
  busy := false
  done := false
  err := false
  ovr := false
  errcode := 0#4
  lastCmd := 0#32
  srcBase := 0#30
  dstBase := 0#30
  width := 0#16
  height := 0#16
  srcLen := 0#32
  blurRadius := 0#32
  firNorm := true
  cmCoef := #v[0x00010000#32, 0#32, 0#32, 0#32, 0#32, 0#32, 0x00010000#32, 0#32, 0#32, 0#32,
    0#32, 0#32, 0x00010000#32, 0#32, 0#32, 0#32, 0#32, 0#32, 0x00010000#32, 0#32]
  firCoef := #v[0#32, 0#32, 0#32, 0#32, 0x00010000#32, 0#32, 0#32, 0#32, 0#32]
  lat := none
  mem := []
  platform := { cmuBase := 0, irqLine := 0, memory := [⟨0, 2 ^ 32⟩], devices := [] }
  prog := []
  sched := []
  turn := .host
  rdata := 0#32
  unseen := []
  draws := 0

end Sys2Proof.Machine
end

