-- ==== Sys2Proof/Machine/Operands.lean ====
section
/-! DEFINITION. The operands of a command, which are latched registers (30_encoding.md R109), and the register window: which
register an offset names, what a read returns and what a write of a register other than CMD, CTRL and STATUS does
(10_state.md section 2, R22, R30 to R39). -/

namespace Sys2Proof.Machine

/-- The byte address {reg[31:2], 0b00} of a buffer base (30_encoding.md R109). -/
def baseAddr (base : BitVec 30) : Nat := (base ++ 0#2).toNat

/-- W = lat.WIDTH, unsigned (40_command.md R131, 30_encoding.md R109). -/
def latW (L : Latch) : Nat := L.width.toNat

/-- H = lat.HEIGHT, unsigned. -/
def latH (L : Latch) : Nat := L.height.toNat

/-- s = lat.SRC_BASE as a byte address (40_command.md R131). -/
def latSrc (L : Latch) : Nat := baseAddr L.srcBase

/-- d = lat.DST_BASE as a byte address (40_command.md R131). -/
def latDst (L : Latch) : Nat := baseAddr L.dstBase

/-- N4 = 4*W*H, the length of both ranges in bytes (20_memory.md R71, 40_command.md R131). -/
def latN4 (L : Latch) : Nat := 4 * (latW L * latH L)

/-- The raw radius (43_separable_blur.md R190). -/
def latRadius (L : Latch) : Int := s32 L.blurRadius

/-- The USER matrix M[c][k] = s32(lat.CM_COEF[5*c + k]) (10_state.md R37, 41_color_matrix.md R158). -/
def latMatrix (L : Latch) (c : Fin 4) (k : Fin 5) : Int := s32 L.cmCoef[5 * c.val + k.val]

/-- The USER kernel K[i][j] = s32(lat.FIR_COEF[3*i + j]) (10_state.md R38, 42_fir_convolver.md R176). -/
def latKernel (L : Latch) (i j : Fin 3) : Int := s32 L.firCoef[3 * i.val + j.val]

/-- `Pix(base, W, x, y)`'s address (00_scope.md R9, 20_memory.md R71). -/
def pixAddr (base w x y : Nat) : Nat := base + 4 * (y * w + x)

/-- `a` is a byte of the input range [s, s + N4) (20_memory.md R71). -/
def inInput (L : Latch) (a : Nat) : Bool := decide (latSrc L ≤ a ∧ a < latSrc L + latN4 L)

/-- `a` is a byte of the output range [d, d + N4) (20_memory.md R71). -/
def inOutput (L : Latch) (a : Nat) : Bool := decide (latDst L ≤ a ∧ a < latDst L + latN4 L)

/-- The register at an offset of the window (10_state.md section 2). -/
def regAt (off : Nat) : Reg :=
  match off with
  | 0x000 => .id
  | 0x004 => .ctrl
  | 0x008 => .status
  | 0x00C => .cmd
  | 0x010 => .srcBase
  | 0x014 => .dstBase
  | 0x018 => .width
  | 0x01C => .height
  | 0x020 => .srcLen
  | 0x024 => .blurRadius
  | 0x028 => .firCfg
  | off =>
    if h : 0x040 ≤ off ∧ off < 0x090 then .cmCoef ⟨(off - 0x040) / 4, by omega⟩
    else if h : 0x0A0 ≤ off ∧ off < 0x0C4 then .firCoef ⟨(off - 0x0A0) / 4, by omega⟩
    else .reserved

/-- The offset of a register (10_state.md section 2); for `reserved`, the first reserved offset. -/
def regOffset (r : Reg) : Nat :=
  match r with
  | .id => 0x000
  | .ctrl => 0x004
  | .status => 0x008
  | .cmd => 0x00C
  | .srcBase => 0x010
  | .dstBase => 0x014
  | .width => 0x018
  | .height => 0x01C
  | .srcLen => 0x020
  | .blurRadius => 0x024
  | .firCfg => 0x028
  | .cmCoef j => 0x040 + 4 * j.val
  | .firCoef j => 0x0A0 + 4 * j.val
  | .reserved => 0x02C

/-- The bits of a buffer base that are stored: [31:2], the low two are RAZ (10_state.md R30, R31). -/
def baseBits (v : Word) : BitVec 30 := v.extractLsb' 2 30

/-- The bits of a dimension that are stored: [15:0] (10_state.md R32, R33). -/
def dimBits (v : Word) : BitVec 16 := v.extractLsb' 0 16

/-- A host write to a configuration register (10_state.md R30 to R38). ID and the reserved offsets ignore it (R22, R39); CTRL,
STATUS and CMD act and are elsewhere (Flags.lean, Ops.lean). -/
def writeConfig (r : Reg) (v : Word) (s : State) : State :=
  match r with
  | .srcBase => { s with srcBase := baseBits v }
  | .dstBase => { s with dstBase := baseBits v }
  | .width => { s with width := dimBits v }
  | .height => { s with height := dimBits v }
  | .srcLen => { s with srcLen := v }
  | .blurRadius => { s with blurRadius := v }
  | .firCfg => { s with firNorm := v.getLsbD 0 }
  | .cmCoef j => { s with cmCoef := s.cmCoef.set j.val v }
  | .firCoef j => { s with firCoef := s.firCoef.set j.val v }
  | .id => s
  | .reserved => s
  | .ctrl => s
  | .status => s
  | .cmd => s

end Sys2Proof.Machine
end

