-- ==== Sys2Proof/Machine/Flags.lean ====
section
/-! DEFINITION. STATUS, CTRL and the interrupt line: what they read as and what a STATUS write clears (10_state.md R23 to
R28, R41), and the read value of every register (10_state.md R22 to R39). -/

namespace Sys2Proof.Machine

/-- STATUS.ERRCODE of an error (60_exceptions.md R210). -/
def errorCode : ErrorCode → BitVec 4
  | .invalidBuffer => 1#4
  | .addrRange => 2#4
  | .overlap => 3#4
  | .busError => 4#4

/-- STATUS as it reads: [11:8] ERRCODE, 3 OVR, 2 ERR, 1 DONE, 0 BUSY, the other bits 0 (10_state.md R24). -/
def statusWord (s : State) : Word :=
  0#20 ++ s.errcode ++ 0#4 ++ BitVec.ofBool s.ovr ++ BitVec.ofBool s.err ++ BitVec.ofBool s.done ++ BitVec.ofBool s.busy

/-- CTRL as it reads: IRQ_EN in bit 0, SRST reads 0 (10_state.md R23). -/
def ctrlWord (s : State) : Word := 0#31 ++ BitVec.ofBool s.ctrlIrqEn

/-- FIR_CFG as it reads: NORM in bit 0 (10_state.md R36). -/
def firCfgWord (s : State) : Word := 0#31 ++ BitVec.ofBool s.firNorm

/-- A host write to STATUS: 1 in bit 1 clears DONE, 1 in bit 2 clears ERR and ERRCODE, 1 in bit 3 clears OVR
(10_state.md R25). -/
def writeStatus (v : Word) (s : State) : State :=
  { s with
    done := s.done && !v.getLsbD 1
    err := s.err && !v.getLsbD 2
    errcode := if v.getLsbD 2 then 0#4 else s.errcode
    ovr := s.ovr && !v.getLsbD 3 }

/-- The interrupt line: IRQ = CTRL.IRQ_EN AND (STATUS.DONE OR STATUS.ERR) (10_state.md R41). -/
def irq (s : State) : Bool := s.ctrlIrqEn && (s.done || s.err)

/-- What the host's interrupt controller is shown: the line's number while the line is asserted (60_exceptions.md R218). -/
def interruptRequest (s : State) : Option Nat := if irq s then some s.platform.irqLine else none

/-- What a host read of a register returns; a read has no side effect (10_state.md R22 to R39, 20_memory.md R78). -/
def readReg (r : Reg) (s : State) : Word :=
  match r with
  | .id => Config.idValue
  | .ctrl => ctrlWord s
  | .status => statusWord s
  | .cmd => s.lastCmd
  | .srcBase => s.srcBase ++ 0#2
  | .dstBase => s.dstBase ++ 0#2
  | .width => 0#16 ++ s.width
  | .height => 0#16 ++ s.height
  | .srcLen => s.srcLen
  | .blurRadius => s.blurRadius
  | .firCfg => firCfgWord s
  | .cmCoef j => s.cmCoef[j.val]
  | .firCoef j => s.firCoef[j.val]
  | .reserved => 0#32

end Sys2Proof.Machine
end

