-- ==== Sys2Proof/Machine/Image.lean ====
section
/-! DEFINITION. Pixels, their 32-bit words, and images (00_scope.md R13, 20_memory.md R71, R72). -/

namespace Sys2Proof.Machine

/-- A pixel (R, G, B, A) (00_scope.md R13). -/
structure Pixel where
  r : Byte
  g : Byte
  b : Byte
  a : Byte
deriving DecidableEq, Repr

/-- Channel k of a pixel as an integer in [0, 255]: 0 = R, 1 = G, 2 = B, 3 = A (00_scope.md R13). -/
def channel (p : Pixel) (k : Fin 4) : Int :=
  match k with
  | 0 => p.r.toNat
  | 1 => p.g.toNat
  | 2 => p.b.toNat
  | 3 => p.a.toNat

/-- The 32-bit value of a pixel is {A, B, G, R} (20_memory.md R72). -/
def pixelWord (p : Pixel) : Word := p.a ++ p.b ++ p.g ++ p.r

/-- The pixel of a 32-bit value: R is bits [7:0] (20_memory.md R72). -/
def pixelOfWord (w : Word) : Pixel :=
  { r := w.extractLsb' 0 8, g := w.extractLsb' 8 8, b := w.extractLsb' 16 8, a := w.extractLsb' 24 8 }

/-- A buffer's contents: width, height and width * height pixels in row-major order from the top-left (20_memory.md R71). -/
structure Image where
  width : Nat
  height : Nat
  pixels : List Pixel
deriving DecidableEq, Repr

/-- The image of the given size whose pixel at column x, row y is `f x y`. -/
def buildImage (w h : Nat) (f : Nat → Nat → Pixel) : Image :=
  { width := w, height := h, pixels := (List.range (w * h)).map fun i => f (i % w) (i / w) }

/-- `in(x, y)`: the pixel at column x, row y (00_scope.md R13, 20_memory.md R71). Outside the image it is never asked for. -/
def pixelAt (img : Image) (x y : Nat) : Pixel := img.pixels.getD (y * img.width + x) ⟨0#8, 0#8, 0#8, 0#8⟩

/-- The edge-clamped coordinate `cx` or `cy` on an axis of `size` pixels (00_scope.md R13). -/
def clampCoord (size : Nat) (v : Int) : Nat := (min (max v 0) ((size : Int) - 1)).toNat

/-- The input pixel at (cx(x), cy(y)) (42_fir_convolver.md R171). -/
def clampedAt (img : Image) (x y : Int) : Pixel :=
  pixelAt img (clampCoord img.width x) (clampCoord img.height y)

/-- The same function applied to every pixel. -/
def mapPixels (f : Pixel → Pixel) (img : Image) : Image := { img with pixels := img.pixels.map f }

end Sys2Proof.Machine
end

