-- ==== Sys2Proof/Machine/Ops.lean ====
section
/-! DEFINITION. The shared operations: memory (20_memory.md R70 to R72, 00_scope.md R9), the error primitive (00_scope.md R10),
and the life of a command: acceptance, latch, checks, dropped write, completion, reset (40_command.md R130 to R134,
70_reset_and_hazards.md R240, R242). The CMU has no trap: `raiseError` is all that an exception's entry is here
(60_exceptions.md R219), and there is no return from one (R220). -/

namespace Sys2Proof.Machine

/-- The outcome of a step of this machine. -/
abbrev Outcome := Host.Outcome State Fault Refusal

/-! ### Memory -/

/-- The canonical form from address `lo` on: rising addresses, no entry equal to what an unlisted address reads as. -/
def Memory.wfFrom (lo : Nat) : Memory → Bool
  | [] => true
  | (k, b) :: m => decide (lo ≤ k) && decide (b ≠ Config.unwrittenByte) && Memory.wfFrom (k + 1) m

/-- The memory is in its canonical form. -/
def Memory.wf (m : Memory) : Bool := Memory.wfFrom 0 m

/-- One byte. An unlisted address reads as `Config.unwrittenByte` (log 4). -/
def Memory.read : Memory → Nat → Byte
  | [], _ => Config.unwrittenByte
  | (k, b) :: m, a => if a = k then b else Memory.read m a

/-- Write one byte, keeping the canonical form. -/
def Memory.write : Memory → Nat → Byte → Memory
  | [], a, v => if v = Config.unwrittenByte then [] else [(a, v)]
  | (k, b) :: m, a, v =>
    if a < k then (if v = Config.unwrittenByte then (k, b) :: m else (a, v) :: (k, b) :: m)
    else if a = k then (if v = Config.unwrittenByte then m else (a, v) :: m)
    else (k, b) :: Memory.write m a v

/-- Write a list of bytes, each at its address, in order. -/
def Memory.writeAll (m : Memory) (cells : List Host.Cell) : Memory :=
  cells.foldl (fun m c => Memory.write m c.1 c.2) m

/-- `MemWrite(addr, 4, v)`: the least-significant byte at `addr` (00_scope.md R9). -/
def Memory.write4 (m : Memory) (addr : Nat) (v : Word) : Memory :=
  Memory.writeAll m [(addr, v.extractLsb' 0 8), (addr + 1, v.extractLsb' 8 8),
    (addr + 2, v.extractLsb' 16 8), (addr + 3, v.extractLsb' 24 8)]

/-- The pixels of a buffer written one after another, each by one 4-byte write, row-major from `addr`
(20_memory.md R71, R77, 40_command.md R134). -/
def Memory.writePixels (m : Memory) (addr : Nat) : List Pixel → Memory
  | [] => m
  | p :: ps => Memory.writePixels (Memory.write4 m addr (pixelWord p)) (addr + 4) ps

/-- The byte addresses of a range. -/
def byteRange (base len : Nat) : List Nat := (List.range len).map fun k => base + k

/-- `a` lies in a region of the platform. -/
def inRegions (rs : List Region) (a : Nat) : Bool := rs.any fun r => decide (r.base ≤ a ∧ a < r.base + r.size)

/-- MEM_OK(a) (00_scope.md R6, 20_memory.md R70). -/
def memOk (p : Platform) (a : Nat) : Bool := decide (a < Config.addrSpace) && inRegions p.memory a

/-- `a` has side effects on read or write (20_memory.md R78). -/
def isDevice (p : Platform) (a : Nat) : Bool := inRegions p.devices a

/-- The byte the running command `L` reads at `a`: the memory's, unless host stores there were not yet visible when it was
accepted, when it is a free choice among the memory's byte and the older ones (20_memory.md R82 (a), 93 U23; log 9). -/
def unitByte (s : State) (L : Latch) (a : Nat) : Byte :=
  match (L.unseen.filter fun n => n.addr == a).map StoreNote.older with
  | [] => s.mem.read a
  | olds => (s.mem.read a :: olds).getD (Config.freePick s.draws a % (olds.length + 1)) Config.unwrittenByte

/-- `MemRead(addr, 4)`: four bytes assembled little-endian (00_scope.md R9). -/
def unitRead4 (s : State) (L : Latch) (addr : Nat) : Word :=
  wordOfLanes (unitByte s L addr) (unitByte s L (addr + 1)) (unitByte s L (addr + 2)) (unitByte s L (addr + 3))

/-- The input image of a command: Pix(s, W, x, y) for all x and y (40_command.md R134). -/
def inputImage (s : State) (L : Latch) : Image :=
  buildImage (latW L) (latH L) fun x y => pixelOfWord (unitRead4 s L (pixAddr (latSrc L) (latW L) x y))

/-- The memory with every admitted byte of the latched output range at any value (40_command.md R134, 93 U10, U11): the free
bytes of the current draw (log 8). -/
def scrambleOutput (s : State) (L : Latch) : Memory :=
  s.mem.writeAll (((byteRange (latDst L) (latN4 L)).filter (memOk s.platform)).map fun a => (a, Config.freeByte s.draws a))

/-- The notes of the host's unseen stores once the unit has written the admitted bytes of the output range of `L`. The unit's
byte stands in memory and every older byte there is gone: what the bus master may still see in its place is a byte that the
host stored before (93 U23; DESIGN CHOICE, log 9). -/
def settleNotes (s : State) (L : Latch) : List StoreNote :=
  s.unseen.map fun n => if inOutput L n.addr && memOk s.platform n.addr then { n with older := n.stored } else n

/-- Some admitted byte of the input or output range has side effects (20_memory.md R78, 93 U15; log 7). -/
def touchesDevice (s : State) (L : Latch) : Bool :=
  (byteRange (latSrc L) (latN4 L) ++ byteRange (latDst L) (latN4 L)).any fun a => memOk s.platform a && isDevice s.platform a

/-! ### Acceptance -/

/-- `latch(w)` (40_command.md R131), with the notes of the host stores not visible at this moment (log 9). -/
def takeLatch (w : Word) (s : State) : Latch where
  cmd := w
  srcBase := s.srcBase
  dstBase := s.dstBase
  width := s.width
  height := s.height
  srcLen := s.srcLen
  blurRadius := s.blurRadius
  firNorm := s.firNorm
  cmCoef := s.cmCoef
  firCoef := s.firCoef
  unseen := s.unseen

/-- `check(LAT)`: the first precondition that fails, in this order (40_command.md R132). -/
def checkLatch (L : Latch) : Option ErrorCode :=
  if latW L = 0 ∨ latH L = 0 ∨ latW L * latH L ≠ L.srcLen.toNat then some .invalidBuffer
  else if 2 ^ 32 < latSrc L + latN4 L ∨ 2 ^ 32 < latDst L + latN4 L then some .addrRange
  else if latSrc L < latDst L + latN4 L ∧ latDst L < latSrc L + latN4 L then some .overlap
  else none

/-- `raise Error(code)`: ERR and ERRCODE, then the completion with the error outcome, which leaves BUSY = 0 and no latch
(00_scope.md R10, 40_command.md R134, 60_exceptions.md R219; log 17). -/
def raiseError (e : ErrorCode) (s : State) : State :=
  { s with err := true, errcode := errorCode e, busy := false, lat := none }

/-- A CMD write taken while BUSY = 0 (40_command.md R130). OVR is not changed (10_state.md R28). The unit may access its buffers
from here on, so an accepted command whose buffers lie on memory with side effects faults here (20_memory.md R78, 93 U15;
log 7); a refused one accesses nothing. -/
def acceptCommand (w : Word) (s : State) : Outcome :=
  let cleared := { s with lastCmd := w, done := false, err := false, errcode := 0#4 }
  match checkLatch (takeLatch w s) with
  | none =>
    if touchesDevice s (takeLatch w s) then .fault .sideEffectBuffer
    else .next { cleared with busy := true, lat := some (takeLatch w s) }
  | some e => .next (raiseError e cleared)

/-- A host write of a command word to CMD: accepted while BUSY = 0 (40_command.md R130), dropped with OVR while BUSY = 1
(40_command.md R133). -/
def issueCommand (w : Word) (s : State) : Outcome :=
  if s.busy then .next { s with ovr := true } else acceptCommand w s

/-! ### Completion -/

/-- Every byte of the input and output ranges is admitted by the platform memory (40_command.md R134). -/
def allAdmitted (s : State) (L : Latch) : Bool :=
  (byteRange (latSrc L) (latN4 L) ++ byteRange (latDst L) (latN4 L)).all (memOk s.platform)

/-- The completion with the output image `out`: every output pixel written, DONE set, BUSY and the latch cleared
(40_command.md R134). A host store into the output range that is still unseen is older than the unit's write: see
`settleNotes` (DESIGN CHOICE, log 9). -/
def finishCommand (L : Latch) (out : Image) (s : State) : State :=
  { s with
    mem := s.mem.writePixels (latDst L) out.pixels
    unseen := settleNotes s L
    done := true
    busy := false
    lat := none
    draws := s.draws + 1 }

/-- The completion that meets a byte the platform does not admit: BUS_ERROR, the admitted output bytes take any value
(40_command.md R134, 60_exceptions.md R214). -/
def busErrorCommand (L : Latch) (s : State) : State :=
  raiseError .busError { s with mem := scrambleOutput s L, unseen := settleNotes s L, draws := s.draws + 1 }

/-- The UNIT's step for a command whose output image is `F LAT img` (40_command.md R134, R135). It is enabled exactly while
BUSY = 1; otherwise nothing happens (log 18). -/
def completeCommand (F : Latch → Image → Image) (s : State) : Outcome :=
  match s.busy, s.lat with
  | true, some L =>
    if touchesDevice s L then .fault .sideEffectBuffer
    else if allAdmitted s L then .next (finishCommand L (F L (inputImage s L)) s)
    else .next (busErrorCommand L s)
  | true, none => .next s
  | false, _ => .next s

/-- What every command does: on the host's turn its word is written to CMD, on the unit's turn the accepted command completes
with the output `F` (00_scope.md R15, 40_command.md R130, R134; log 1). -/
def runCommand (w : Word) (F : Latch → Image → Image) (s : State) : Outcome :=
  match s.turn with
  | .host => issueCommand w s
  | .unit => completeCommand F s

/-! ### Reset -/

/-- The memory after a reset: untouched, except that the admitted output bytes of a running command take any value
(70_reset_and_hazards.md R240, R242, 93 U11). A running command has no buffer on memory with side effects, because its
acceptance faults (log 7); in a state that no run reaches, where it has one, a reset is no fault and those admitted output
bytes take any value too (DESIGN CHOICE, log 7). -/
def abandonedMemory (s : State) : Memory :=
  match s.busy, s.lat with
  | true, some L => scrambleOutput s L
  | true, none => s.mem
  | false, _ => s.mem

/-- The notes of the host's unseen stores after a reset: those of a running command's output range as after its writes
(log 9). -/
def abandonedNotes (s : State) : List StoreNote :=
  match s.busy, s.lat with
  | true, some L => settleNotes s L
  | true, none => s.unseen
  | false, _ => s.unseen

/-- Hardware reset (70_reset_and_hazards.md R240), and the effect of a soft reset (R242): every register at its reset value,
the latch gone. The platform and the host agent are not the unit's and stay. -/
def resetUnit (s : State) : State :=
  { State.reset with
    mem := abandonedMemory s
    platform := s.platform
    prog := s.prog
    sched := s.sched
    turn := s.turn
    rdata := s.rdata
    unseen := abandonedNotes s
    draws := s.draws + 1 }

/-- A host write to CTRL: bit 1 = 1 is a soft reset, whatever else the write holds; otherwise bit 0 becomes IRQ_EN
(10_state.md R23, 70_reset_and_hazards.md R242). -/
def writeCtrl (v : Word) (s : State) : State :=
  if v.getLsbD 1 then resetUnit s else { s with ctrlIrqEn := v.getLsbD 0 }

/-- A host write to a register other than CMD (10_state.md section 2). -/
def writeReg (r : Reg) (v : Word) (s : State) : State :=
  match r with
  | .ctrl => writeCtrl v s
  | .status => writeStatus v s
  | .cmd => s
  | r => writeConfig r v s

end Sys2Proof.Machine
end

