-- ==== Sys2Proof/Machine/Copy.lean ====
section
/-! DEFINITION. COPY and the unrecognized OP values: the identity copy (40_command.md R136, R137). -/

namespace Sys2Proof.Machine

/-- The identity copy: every pixel, all four channels (40_command.md R136). -/
def copyImage (img : Image) : Image := buildImage img.width img.height (pixelAt img)

/-- COPY (40_command.md R136). -/
def execCopy (sel : BitVec 4) (ign : BitVec 24) (s : State) : Outcome :=
  runCommand (encode (.copy sel ign)) (fun _ img => copyImage img) s

/-- OP.RSV, OP 0x4..0x7: what COPY does (40_command.md R137). -/
def execOpRsvLo (op sel : BitVec 4) (ign : BitVec 24) (s : State) : Outcome :=
  runCommand (encode (.opRsvLo op sel ign)) (fun _ img => copyImage img) s

/-- OP.RSV, OP 0x8..0xF: what COPY does (40_command.md R137). -/
def execOpRsvHi (op sel : BitVec 4) (ign : BitVec 24) (s : State) : Outcome :=
  runCommand (encode (.opRsvHi op sel ign)) (fun _ img => copyImage img) s

end Sys2Proof.Machine
end

