-- ==== Sys2Proof/Machine/Presets.lean ====
section
/-! DEFINITION. The preset tables, constants of the hardware and not registers (70_reset_and_hazards.md R243), at the values
of 00_scope.md R6 (log 16). -/

namespace Sys2Proof.Machine

/-- wR of LUMA_W, raw Q16.16 (00_scope.md R6, 41_color_matrix.md R152). -/
def lumaR : Int := 13959

/-- wG of LUMA_W. -/
def lumaG : Int := 46858

/-- wB of LUMA_W. -/
def lumaB : Int := 4719

/-- The identity color matrix (41_color_matrix.md R155). -/
def identityMatrix (c : Fin 4) (k : Fin 5) : Int := if k.val = c.val then 65536 else 0

/-- The grayscale matrix G (41_color_matrix.md R152). -/
def grayMatrix (c : Fin 4) (k : Fin 5) : Int :=
  if c.val = 3 then (if k.val = 3 then 65536 else 0)
  else match k with
    | 0 => lumaR
    | 1 => lumaG
    | 2 => lumaB
    | _ => 0

/-- The identity kernel (42_fir_convolver.md R175). -/
def identityKernel (i j : Fin 3) : Int := if i.val = 1 ∧ j.val = 1 then 65536 else 0

/-- One axis of BLUR3_K, whose taps are 32768 times the products of (1, 2, 1) with itself. -/
def blur3Axis (i : Fin 3) : Int := if i.val = 1 then 2 else 1

/-- BLUR3_K, raw Q16.16, row-major (32768, 65536, 32768; 65536, 131072, 65536; 32768, 65536, 32768) (00_scope.md R6,
42_fir_convolver.md R177). -/
def blur3Kernel (i j : Fin 3) : Int := 32768 * (blur3Axis i * blur3Axis j)

/-- The EdgeDetect kernel (42_fir_convolver.md R178). -/
def edgeKernel (i j : Fin 3) : Int := if i.val = 1 ∧ j.val = 1 then 524288 else -65536

/-- C(n, k) by factorials, which evaluates fast (`binomial_eq_choose` in Laws/Engines.lean says it is `Nat.choose`). -/
def binomial (n k : Nat) : Nat := n.factorial / (k.factorial * (n - k).factorial)

/-- BLUR_W(n, i) = C(2n, n + i), for -n ≤ i ≤ n (43_separable_blur.md R192). -/
def blurWeight (n : Nat) (i : Int) : Int := binomial (2 * n) ((n : Int) + i).toNat

end Sys2Proof.Machine
end

