-- ==== Sys2Proof/Machine/Blur.lean ====
section
/-! DEFINITION. The separable blur filter (43_separable_blur.md R190 to R195). -/

namespace Sys2Proof.Machine

/-- The half-width n of a raw radius (43_separable_blur.md R191). -/
def halfWidth (r : Int) : Nat := if r ≤ 0 then 0 else min (ceil16 r).toNat Config.blurNMax

/-- The tap offsets -n .. n (43_separable_blur.md R192). -/
def blurTaps (n : Nat) : List Int := (List.range (2 * n + 1)).map fun k : Nat => (k : Int) - n

/-- T_n, the sum of the weights (43_separable_blur.md R192). -/
def blurTotal (n : Nat) : Int := sumOver (blurTaps n) (blurWeight n)

/-- The horizontal pass Hp(x, y), exact (43_separable_blur.md R193). -/
def hPass (n : Nat) (img : Image) (x y : Nat) (c : Fin 4) : Int :=
  sumOver (blurTaps n) fun j => blurWeight n j * channel (pixelAt img (clampCoord img.width ((x : Int) + j)) y) c

/-- The vertical pass Vp(x, y) over the exact horizontal pass (43_separable_blur.md R193). -/
def vPass (n : Nat) (img : Image) (x y : Nat) (c : Fin 4) : Int :=
  sumOver (blurTaps n) fun i => blurWeight n i * hPass n img x (clampCoord img.height ((y : Int) + i)) c

/-- One output pixel: one rounding per colour channel, alpha unchanged (43_separable_blur.md R193 to R195). -/
def blurPixel (n : Nat) (img : Image) (x y : Nat) : Pixel :=
  { r := chan (vPass n img x y 0) (blurTotal n * blurTotal n)
    g := chan (vPass n img x y 1) (blurTotal n * blurTotal n)
    b := chan (vPass n img x y 2) (blurTotal n * blurTotal n)
    a := (pixelAt img x y).a }

/-- The blurred image at half-width n: the identity when n = 0 (43_separable_blur.md R194). -/
def blurImage (n : Nat) (img : Image) : Image :=
  if n = 0 then copyImage img else buildImage img.width img.height (blurPixel n img)

/-- BLUR (43_separable_blur.md R194). -/
def execBlur (sel : BitVec 4) (ign : BitVec 24) (s : State) : Outcome :=
  runCommand (encode (.blur sel ign)) (fun L img => blurImage (halfWidth (latRadius L)) img) s

end Sys2Proof.Machine
end

