-- ==== Sys2Proof/Machine/ColorMatrix.lean ====
section
/-! DEFINITION. The color matrix engine (41_color_matrix.md R150 to R159). -/

namespace Sys2Proof.Machine

/-- `acc_c`: row c of the matrix on (R, G, B, A, 1), exact, in units of 2^-16 (41_color_matrix.md R151). -/
def cmAcc (M : Fin 4 → Fin 5 → Int) (p : Pixel) (c : Fin 4) : Int :=
  M c 0 * channel p 0 + M c 1 * channel p 1 + M c 2 * channel p 2 + M c 3 * channel p 3 + M c 4 * 1

/-- `out_c` for the four channels (41_color_matrix.md R151). -/
def affinePixel (M : Fin 4 → Fin 5 → Int) (p : Pixel) : Pixel :=
  { r := chan (cmAcc M p 0) 65536, g := chan (cmAcc M p 1) 65536,
    b := chan (cmAcc M p 2) 65536, a := chan (cmAcc M p 3) 65536 }

/-- The luminance accumulator L(p) (41_color_matrix.md R152). -/
def luminance (p : Pixel) : Int := lumaR * channel p 0 + lumaG * channel p 1 + lumaB * channel p 2

/-- The threshold stage thr(L) (41_color_matrix.md R153). -/
def threshold (l : Int) : Byte := if 128 * 65536 ≤ l then 255#8 else 0#8

/-- CM.GRAY on one pixel (41_color_matrix.md R156). -/
def grayPixel (p : Pixel) : Pixel :=
  let y := chan (luminance p) 65536
  { r := y, g := y, b := y, a := p.a }

/-- CM.BIN on one pixel: the threshold of the unrounded luminance (41_color_matrix.md R157, 90_conflicts.md C1). -/
def binaryPixel (p : Pixel) : Pixel :=
  let t := threshold (luminance p)
  { r := t, g := t, b := t, a := p.a }

/-- CM.ID (41_color_matrix.md R155). -/
def execCmId (ign : BitVec 24) (s : State) : Outcome :=
  runCommand (encode (.cmId ign)) (fun _ img => mapPixels (affinePixel identityMatrix) img) s

/-- CM.GRAY (41_color_matrix.md R156). -/
def execCmGray (ign : BitVec 24) (s : State) : Outcome :=
  runCommand (encode (.cmGray ign)) (fun _ img => mapPixels grayPixel img) s

/-- CM.BIN (41_color_matrix.md R157). -/
def execCmBin (ign : BitVec 24) (s : State) : Outcome :=
  runCommand (encode (.cmBin ign)) (fun _ img => mapPixels binaryPixel img) s

/-- CM.USER (41_color_matrix.md R158). -/
def execCmUser (ign : BitVec 24) (s : State) : Outcome :=
  runCommand (encode (.cmUser ign)) (fun L img => mapPixels (affinePixel (latMatrix L)) img) s

/-- CM.RSV, SEL 0x4..0x7: the identity copy (41_color_matrix.md R159). -/
def execCmRsvLo (sel : BitVec 4) (ign : BitVec 24) (s : State) : Outcome :=
  runCommand (encode (.cmRsvLo sel ign)) (fun _ img => copyImage img) s

/-- CM.RSV, SEL 0x8..0xF: the identity copy (41_color_matrix.md R159). -/
def execCmRsvHi (sel : BitVec 4) (ign : BitVec 24) (s : State) : Outcome :=
  runCommand (encode (.cmRsvHi sel ign)) (fun _ img => copyImage img) s

end Sys2Proof.Machine
end

