-- ==== Sys2Proof/Machine/Fir.lean ====
section
/-! DEFINITION. The 3x3 FIR convolver (42_fir_convolver.md R170 to R179). -/

namespace Sys2Proof.Machine

/-- The three rows, and the three columns, of a kernel: index i stands for the offset i - 1 (42_fir_convolver.md R170). -/
def kernelIndices : List (Fin 3) := [0, 1, 2]

/-- The offset dy = i - 1 or dx = j - 1 of a kernel index. -/
def tapOffset (i : Fin 3) : Int := (i.val : Int) - 1

/-- `acc_c(x, y)`: nine taps on the edge-clamped neighbours, exact (42_fir_convolver.md R171, R172). -/
def firAcc (K : Fin 3 → Fin 3 → Int) (img : Image) (x y : Nat) (c : Fin 4) : Int :=
  sumOver kernelIndices fun i => sumOver kernelIndices fun j =>
    K i j * channel (clampedAt img ((x : Int) + tapOffset j) ((y : Int) + tapOffset i)) c

/-- The kernel's sum S (42_fir_convolver.md R170). -/
def kernelSum (K : Fin 3 → Fin 3 → Int) : Int :=
  sumOver kernelIndices fun i => sumOver kernelIndices fun j => K i j

/-- The divisor D (42_fir_convolver.md R173). -/
def firDivisor (norm : Bool) (K : Fin 3 → Fin 3 → Int) : Int :=
  if norm = true ∧ kernelSum K ≠ 0 then kernelSum K else 65536

/-- One output pixel: three filtered colour channels, the centre's alpha (42_fir_convolver.md R173, R174). -/
def firPixel (norm : Bool) (K : Fin 3 → Fin 3 → Int) (img : Image) (x y : Nat) : Pixel :=
  { r := chan (firAcc K img x y 0) (firDivisor norm K)
    g := chan (firAcc K img x y 1) (firDivisor norm K)
    b := chan (firAcc K img x y 2) (firDivisor norm K)
    a := (pixelAt img x y).a }

/-- The convolved image (42_fir_convolver.md R172 to R174). -/
def firImage (norm : Bool) (K : Fin 3 → Fin 3 → Int) (img : Image) : Image :=
  buildImage img.width img.height (firPixel norm K img)

/-- FIR.ID (42_fir_convolver.md R175); norm is irrelevant, S = 65536. -/
def execFirId (ign : BitVec 24) (s : State) : Outcome :=
  runCommand (encode (.firId ign)) (fun _ img => firImage false identityKernel img) s

/-- FIR.BLUR (42_fir_convolver.md R177). -/
def execFirBlur (ign : BitVec 24) (s : State) : Outcome :=
  runCommand (encode (.firBlur ign)) (fun _ img => firImage true blur3Kernel img) s

/-- FIR.EDGE (42_fir_convolver.md R178). -/
def execFirEdge (ign : BitVec 24) (s : State) : Outcome :=
  runCommand (encode (.firEdge ign)) (fun _ img => firImage false edgeKernel img) s

/-- FIR.USER (42_fir_convolver.md R176). -/
def execFirUser (ign : BitVec 24) (s : State) : Outcome :=
  runCommand (encode (.firUser ign)) (fun L img => firImage L.firNorm (latKernel L) img) s

/-- FIR.RSV, SEL 0x4..0x7: the identity copy (42_fir_convolver.md R179). -/
def execFirRsvLo (sel : BitVec 4) (ign : BitVec 24) (s : State) : Outcome :=
  runCommand (encode (.firRsvLo sel ign)) (fun _ img => copyImage img) s

/-- FIR.RSV, SEL 0x8..0xF: the identity copy (42_fir_convolver.md R179). -/
def execFirRsvHi (sel : BitVec 4) (ign : BitVec 24) (s : State) : Outcome :=
  runCommand (encode (.firRsvHi sel ign)) (fun _ img => copyImage img) s

end Sys2Proof.Machine
end

