-- ==== Sys2Proof/Machine/Dispatch.lean ====
section
/-! DEFINITION. One arm per command (40_command.md R135). -/

namespace Sys2Proof.Machine

def exec (i : Instr) (s : State) : Host.Outcome State Fault Refusal :=
  match i with
  | .copy sel ign => Sys2Proof.Machine.execCopy sel ign s
  | .cmId ign => Sys2Proof.Machine.execCmId ign s
  | .cmGray ign => Sys2Proof.Machine.execCmGray ign s
  | .cmBin ign => Sys2Proof.Machine.execCmBin ign s
  | .cmUser ign => Sys2Proof.Machine.execCmUser ign s
  | .cmRsvLo sel ign => Sys2Proof.Machine.execCmRsvLo sel ign s
  | .cmRsvHi sel ign => Sys2Proof.Machine.execCmRsvHi sel ign s
  | .firId ign => Sys2Proof.Machine.execFirId ign s
  | .firBlur ign => Sys2Proof.Machine.execFirBlur ign s
  | .firEdge ign => Sys2Proof.Machine.execFirEdge ign s
  | .firUser ign => Sys2Proof.Machine.execFirUser ign s
  | .firRsvLo sel ign => Sys2Proof.Machine.execFirRsvLo sel ign s
  | .firRsvHi sel ign => Sys2Proof.Machine.execFirRsvHi sel ign s
  | .blur sel ign => Sys2Proof.Machine.execBlur sel ign s
  | .opRsvLo op sel ign => Sys2Proof.Machine.execOpRsvLo op sel ign s
  | .opRsvHi op sel ign => Sys2Proof.Machine.execOpRsvHi op sel ign s

end Sys2Proof.Machine
end

