-- ==== Sys2Proof/Machine/Agents.lean ====
section
/-! DEFINITION. The HOST agent's transactions, the UNIT agent's move and their interleaving (00_scope.md R15, 20_memory.md R76,
R82, R83, 30_encoding.md R111, 60_exceptions.md R217). Running a command word is a parameter here; Step.lean gives it `exec` of
the decoded word. -/

namespace Sys2Proof.Machine

/-- How many bytes an access is wide. -/
def sizeBytes : AccessSize → Nat
  | .byte => 1
  | .half => 2
  | .word => 4

/-! ### The register window -/

/-- The offset of a physical address in the register window [CMU_BASE, CMU_BASE + 4 KiB) (20_memory.md R70). -/
def windowOffset (p : Platform) (addr : Nat) : Option Nat :=
  if p.cmuBase ≤ addr ∧ addr < p.cmuBase + Config.windowSize then some (addr - p.cmuBase) else none

/-- The register a host access reaches: only an aligned 32-bit access has a meaning (20_memory.md R76, 93 U14; log 11). -/
def accessedReg (p : Platform) (addr : Nat) (size : AccessSize) : Except Refusal Reg :=
  match windowOffset p addr with
  | none => .error .outsideWindow
  | some off => if size = .word ∧ off % 4 = 0 then .ok (regAt off) else .error .registerAccess

/-- A host register write. A write to CMD issues its command (10_state.md R29). -/
def hostRegWrite (run : Word → State → Outcome) (addr : Nat) (size : AccessSize) (data : Word) (s : State) : Outcome :=
  match accessedReg s.platform addr size with
  | .error r => .refused r
  | .ok .cmd => run data s
  | .ok r => .next (writeReg r data s)

/-- A host register read: the value goes to the host, nothing else changes (20_memory.md R78). -/
def hostRegRead (addr : Nat) (size : AccessSize) (s : State) : Outcome :=
  match accessedReg s.platform addr size with
  | .error r => .refused r
  | .ok r => .next { s with rdata := readReg r s }

/-- One read of a `poll`; the statement stays the host's next one until (value AND mask) = val (30_encoding.md R111). -/
def hostPoll (addr : Nat) (mask val : Word) (s : State) : Outcome :=
  match accessedReg s.platform addr .word with
  | .error r => .refused r
  | .ok r =>
    if readReg r s &&& mask = val then .next { s with rdata := readReg r s }
    else .next { s with rdata := readReg r s, prog := .poll addr mask val :: s.prog }

/-! ### The host's own memory accesses -/

/-- `a` is a byte of the running command's input or output range (20_memory.md R83). -/
def busyBuffer (s : State) (a : Nat) : Bool :=
  match s.busy, s.lat with
  | true, some L => inInput L a || inOutput L a
  | true, none => false
  | false, _ => false

/-- `a` is a byte of the running command's output range (20_memory.md R83). -/
def busyOutput (s : State) (a : Nat) : Bool :=
  match s.busy, s.lat with
  | true, some L => inOutput L a
  | true, none => false
  | false, _ => false

/-- The byte addresses of a host access. -/
def accessBytes (addr : Word) (size : AccessSize) : List Nat := byteRange addr.toNat (sizeBytes size)

/-- The bytes a host store puts at its addresses, least significant first (20_memory.md R72, R73). -/
def storedCells (addr : Word) (size : AccessSize) (data : Word) : List Host.Cell :=
  (accessBytes addr size).zip (byteLanes data)

/-- The notes of a host store, one for each byte: the byte that was there and the byte stored (log 9). -/
def storeNotes (cells : List Host.Cell) (s : State) : List StoreNote :=
  cells.map fun c => { addr := c.1, older := s.mem.read c.1, stored := c.2 }

/-- A host store (20_memory.md R83, 93 U13, U23). Until the host's fence the bus master may still see the older bytes. Where
more than one stop applies, the spec gives no order: past the end of the space comes first, then a device byte, then a byte
of the running command's ranges (DESIGN CHOICE, log 13). -/
def hostMemWrite (addr : Word) (size : AccessSize) (data : Word) (s : State) : Outcome :=
  if Config.addrSpace < addr.toNat + sizeBytes size then .fault .beyondAddressSpace
  else if (accessBytes addr size).any (isDevice s.platform) then .refused .platformDevice
  else if (accessBytes addr size).any (busyBuffer s) then .fault .hostWroteBusyBuffer
  else .next { s with
    mem := s.mem.writeAll (storedCells addr size data)
    unseen := storeNotes (storedCells addr size data) s ++ s.unseen }

/-- The byte a host load returns: any value in the running command's output range, else the memory's (20_memory.md R83,
93 U12; log 8). -/
def hostByte (s : State) (a : Nat) : Byte := if busyOutput s a then Config.freeByte s.draws a else s.mem.read a

/-- The value a host load returns, little-endian and zero-extended. -/
def hostLoad (addr : Word) (size : AccessSize) (s : State) : Word :=
  match size with
  | .byte => wordOfLanes (hostByte s addr.toNat) 0#8 0#8 0#8
  | .half => wordOfLanes (hostByte s addr.toNat) (hostByte s (addr.toNat + 1)) 0#8 0#8
  | .word => wordOfLanes (hostByte s addr.toNat) (hostByte s (addr.toNat + 1)) (hostByte s (addr.toNat + 2))
      (hostByte s (addr.toNat + 3))

/-- A host load (20_memory.md R83). -/
def hostMemRead (addr : Word) (size : AccessSize) (s : State) : Outcome :=
  if Config.addrSpace < addr.toNat + sizeBytes size then .fault .beyondAddressSpace
  else if (accessBytes addr size).any (isDevice s.platform) then .refused .platformDevice
  else .next { s with rdata := hostLoad addr size s, draws := s.draws + 1 }

/-- The host's fence: its stores so far are visible to the bus master for every later command. The running command keeps the
notes of its latch, because the fence comes after its CMD write (20_memory.md R82 (a)); a store that would land in its output
range while it runs is a host write there (R83; log 9). -/
def hostFence (s : State) : Outcome :=
  if s.unseen.any (fun n => busyOutput s n.addr) then .fault .hostWroteBusyBuffer else .next { s with unseen := [] }

/-! ### The moves -/

/-- One statement of the host program. -/
def hostStatement (run : Word → State → Outcome) (op : HostOp) (s : State) : Outcome :=
  match op with
  | .regWrite addr size data => hostRegWrite run addr size data s
  | .regRead addr size => hostRegRead addr size s
  | .poll addr mask val => hostPoll addr mask val s
  | .memWrite addr size data => hostMemWrite addr size data s
  | .memRead addr size => hostMemRead addr size s
  | .fence => hostFence s

/-- The HOST moves: its next statement, or nothing when it has none (60_exceptions.md R228; log 18). -/
def hostMove (run : Word → State → Outcome) (s : State) : Outcome :=
  match s.prog with
  | [] => .next { s with turn := .host }
  | op :: rest => hostStatement run op { s with turn := .host, prog := rest }

/-- The UNIT moves: it runs the latched command word, or does nothing while BUSY = 0 (40_command.md R134; log 18). -/
def unitMove (run : Word → State → Outcome) (s : State) : Outcome :=
  match s.busy, s.lat with
  | true, some L => run L.cmd { s with turn := .unit }
  | true, none => .next { s with turn := .unit }
  | false, _ => .next { s with turn := .unit }

/-- One step of the interleaving: the event that `sched` names next; when it names none, the unit completes if it is busy and
the host moves otherwise, so that every completion is taken (00_scope.md R15, 70_reset_and_hazards.md R240, R253; log 2). -/
def agentStep (run : Word → State → Outcome) (s : State) : Outcome :=
  match s.sched with
  | .hostMove :: rest => hostMove run { s with sched := rest }
  | .unitMove :: rest => unitMove run { s with sched := rest }
  | .resetInput :: rest => .next (resetUnit { s with sched := rest })
  | [] => if s.busy then unitMove run s else hostMove run s

end Sys2Proof.Machine
end

