-- ==== Sys2Proof/Machine/HostAsm.lean ====
section
/-! DEFINITION. The host assembly notation and its expansions into bus transactions (30_encoding.md R111, R112). -/

namespace Sys2Proof.Machine

/-- `wr REG, imm32` is W off imm32 (30_encoding.md R111). -/
def asmWr (p : Platform) (r : Reg) (v : Word) : HostOp := .regWrite (p.cmuBase + regOffset r) .word v

/-- `rd REG` is R off (30_encoding.md R111). -/
def asmRd (p : Platform) (r : Reg) : HostOp := .regRead (p.cmuBase + regOffset r) .word

/-- `poll REG, mask, val` (30_encoding.md R111). -/
def asmPoll (p : Platform) (r : Reg) (mask val : Word) : HostOp := .poll (p.cmuBase + regOffset r) mask val

/-- `mem.wr32 addr, imm32` (30_encoding.md R111). -/
def asmMemWr32 (addr v : Word) : HostOp := .memWrite addr .word v

/-- `mem.rd32 addr` (30_encoding.md R111). -/
def asmMemRd32 (addr : Word) : HostOp := .memRead addr .word

/-- `copy`, `cm.*`, `fir.*` and `blur`: `wr CMD` with the canonical word (30_encoding.md R108, R112). -/
def asmCommand (p : Platform) (i : Instr) : HostOp := asmWr p .cmd (encode i)

/-- `wait` (30_encoding.md R112). -/
def asmWait (p : Platform) : HostOp := asmPoll p .status 0x1#32 0x0#32

/-- `clr` (30_encoding.md R112). -/
def asmClr (p : Platform) : HostOp := asmWr p .status 0xE#32

/-- `setbuf s, d, w, h` (30_encoding.md R112). The spec gives `w*h` no value where it does not fit in imm32: here `w` and `h`
are 32-bit and the product is taken mod 2^32 (DESIGN CHOICE, log 24). -/
def asmSetbuf (p : Platform) (src dst w h : Word) : List HostOp :=
  [asmWr p .srcBase src, asmWr p .dstBase dst, asmWr p .width w, asmWr p .height h, asmWr p .srcLen (w * h)]

end Sys2Proof.Machine
end

