-- ==== Sys2Proof/Machine/Step.lean ====
section
/-! DEFINITION. One step of the machine, and a command word placed where the next step takes it from. -/

namespace Sys2Proof.Machine

/-- One step: the agent that moves next makes its move, and a command word it runs is the decoded instruction
(30_encoding.md R106, 40_command.md R130, R134). -/
def step (s : State) : Host.Outcome State Fault Refusal := agentStep (fun w s => exec (decode w) s) s

/-- `s` with the command word `w` as the host's next transaction, a 32-bit write to CMD, and the host moving next (log 3). -/
def State.withFetchWord (s : State) (nbits w : Nat) : State :=
  { s with
    prog := asmWr s.platform .cmd (BitVec.ofNat 32 (w % 2 ^ nbits)) :: s.prog
    sched := .hostMove :: s.sched }

end Sys2Proof.Machine
end

