-- ==== Sys2Proof/Safety.lean ====
section
/-! DEFINITION. The terms in which the claims speak: pixels in memory, a command ready to complete, what a completed command
leaves, the registers at reset, and the invariant of the machine. -/

namespace Sys2Proof.Safety

open Sys2Proof.Machine

/-- The pixel stored at an address: R, G, B, A at increasing addresses (20_memory.md R72). -/
def memPixel (m : Memory) (addr : Nat) : Pixel :=
  { r := m.read addr, g := m.read (addr + 1), b := m.read (addr + 2), a := m.read (addr + 3) }

/-- `in(x, y)`: the input pixel of a command as the bus master sees it (00_scope.md R13, 20_memory.md R71, R72). -/
def inPixel (s : State) (L : Latch) (x y : Nat) : Pixel :=
  { r := unitByte s L (pixAddr (latSrc L) (latW L) x y)
    g := unitByte s L (pixAddr (latSrc L) (latW L) x y + 1)
    b := unitByte s L (pixAddr (latSrc L) (latW L) x y + 2)
    a := unitByte s L (pixAddr (latSrc L) (latW L) x y + 3) }

/-- The input pixel at the edge-clamped coordinates (cx(x), cy(y)) (00_scope.md R13, 42_fir_convolver.md R171). -/
def nearPixel (s : State) (L : Latch) (x y : Int) : Pixel :=
  inPixel s L (min (max x 0) ((latW L : Int) - 1)).toNat (min (max y 0) ((latH L : Int) - 1)).toNat

/-- The nine-tap sum of 42_fir_convolver.md R172, written out: kernel rows dy = -1, 0, 1, columns dx = -1, 0, 1. -/
def nineTaps (K : Fin 3 → Fin 3 → Int) (f : Int → Int → Int) : Int :=
  K 0 0 * f (-1) (-1) + K 0 1 * f (-1) 0 + K 0 2 * f (-1) 1
    + K 1 0 * f 0 (-1) + K 1 1 * f 0 0 + K 1 2 * f 0 1
    + K 2 0 * f 1 (-1) + K 2 1 * f 1 0 + K 2 2 * f 1 1

/-- The output pixel of a 3x3 convolution with divisor D (42_fir_convolver.md R172 to R174). -/
def convolved (s : State) (L : Latch) (K : Fin 3 → Fin 3 → Int) (D : Int) (x y : Nat) : Pixel :=
  { r := chan (nineTaps K fun dy dx => channel (nearPixel s L (x + dx) (y + dy)) 0) D
    g := chan (nineTaps K fun dy dx => channel (nearPixel s L (x + dx) (y + dy)) 1) D
    b := chan (nineTaps K fun dy dx => channel (nearPixel s L (x + dx) (y + dy)) 2) D
    a := (inPixel s L x y).a }

/-- The direct 2-D weighted sum of 43_separable_blur.md R193 with the binomial weights of R192. -/
def binomialSum (s : State) (L : Latch) (n x y : Nat) (c : Fin 4) : Int :=
  ∑ i ∈ Finset.range (2 * n + 1), ∑ j ∈ Finset.range (2 * n + 1),
    ((2 * n).choose i : Int) * ((2 * n).choose j : Int) *
      channel (nearPixel s L ((x : Int) + ((j : Int) - n)) ((y : Int) + ((i : Int) - n))) c

/-- The unit is about to complete the accepted command `L`, every byte of both ranges is admitted by the platform memory, and
none of them has side effects (40_command.md R134, 20_memory.md R78). -/
abbrev ReadyToComplete (s : State) (L : Latch) : Prop :=
  s.turn = .unit ∧ s.busy = true ∧ s.lat = some L ∧ allAdmitted s L = true ∧ touchesDevice s L = false

/-- `t` is what the completion of `L` leaves from `s` when the output pixel at (x, y) is `f x y`: DONE, BUSY = 0, no latch, one
draw counted, the notes of unseen stores in the output range settled (log 9), every other register as before; every output
pixel holds its value; every byte outside the output range reads as before (40_command.md R134, R138, 20_memory.md R89). -/
def CompletedWith (s t : State) (L : Latch) (f : Nat → Nat → Pixel) : Prop :=
  t = { s with
    mem := t.mem, done := true, busy := false, lat := none, unseen := settleNotes s L, draws := s.draws + 1 } ∧
  (∀ x y, x < latW L → y < latH L → memPixel t.mem (pixAddr (latDst L) (latW L) x y) = f x y) ∧
  (∀ a, inOutput L a = false → t.mem.read a = s.mem.read a)

/-- `s` with `op` as the host's next statement and the host moving next. -/
def hostDoes (s : State) (op : HostOp) : State := { s with prog := op :: s.prog, sched := .hostMove :: s.sched }

/-- Every register at the reset value of 10_state.md section 2 (R44, 70_reset_and_hazards.md R240), written out. -/
structure RegistersAtReset (s : State) : Prop where
  id : readReg .id s = 0x434D5501#32
  ctrl : readReg .ctrl s = 0#32
  status : readReg .status s = 0#32
  cmd : readReg .cmd s = 0#32
  srcBase : readReg .srcBase s = 0#32
  dstBase : readReg .dstBase s = 0#32
  width : readReg .width s = 0#32
  height : readReg .height s = 0#32
  srcLen : readReg .srcLen s = 0#32
  blurRadius : readReg .blurRadius s = 0#32
  firCfg : readReg .firCfg s = 0x00000001#32
  cmCoef : ∀ j : Fin 20, readReg (.cmCoef j) s =
    if j.val = 0 ∨ j.val = 6 ∨ j.val = 12 ∨ j.val = 18 then 0x00010000#32 else 0#32
  firCoef : ∀ j : Fin 9, readReg (.firCoef j) s = if j.val = 4 then 0x00010000#32 else 0#32
  idle : s.busy = false ∧ s.done = false ∧ s.err = false ∧ s.ovr = false ∧ s.errcode = 0#4
  latch : s.lat = none
  interrupt : irq s = false

/-- What a reset leaves alone: the platform, the host agent and memory, except that the admitted bytes of a running command's
output range hold any value: those of the draw (70_reset_and_hazards.md R240, R242; log 8), and the notes of unseen stores
there are settled as by the command's writes (log 9). -/
structure KeptByReset (s t : State) : Prop where
  platform : t.platform = s.platform
  prog : t.prog = s.prog
  rdata : t.rdata = s.rdata
  unseen : s.busy = false ∨ s.lat = none → t.unseen = s.unseen
  settled : ∀ L, s.busy = true → s.lat = some L → t.unseen = settleNotes s L
  memory : ∀ a, ¬ (∃ L, s.busy = true ∧ s.lat = some L ∧ inOutput L a = true ∧ memOk s.platform a = true) →
    t.mem.read a = s.mem.read a
  abandoned : ∀ L a, s.busy = true → s.lat = some L → inOutput L a = true → memOk s.platform a = true →
    t.mem.read a = Config.freeByte s.draws a

/-- The invariant of the machine. -/
structure MachineInv (s : State) : Prop where
  /-- The memory has its canonical form. -/
  memory : s.mem.wf = true
  /-- Memory holds bytes at 0 .. 2^32 - 1 only (20_memory.md R70). -/
  space : ∀ c ∈ s.mem, c.1 < 2 ^ 32
  /-- busy = true <-> lat is some (10_state.md R45). -/
  latch : s.busy = true ↔ s.lat.isSome = true
  /-- DONE and ERR are both 0 while BUSY = 1 (10_state.md R27). -/
  running : s.busy = true → s.done = false ∧ s.err = false
  /-- At most one of DONE and ERR is 1 (10_state.md R27). -/
  outcome : ¬ (s.done = true ∧ s.err = true)
  /-- ERRCODE is nonzero exactly when ERR = 1 (10_state.md R26). -/
  code : s.errcode ≠ 0#4 ↔ s.err = true
  /-- The codes 5 to 15 are never reported (60_exceptions.md R210). -/
  reported : s.errcode.toNat ≤ 4
  /-- The running command passed the checks, none of its buffers lies on memory with side effects, and CMD reads back its word
  (40_command.md R130, R132, 20_memory.md R78, 10_state.md R29). -/
  accepted : ∀ L, s.lat = some L → checkLatch L = none ∧ touchesDevice s L = false ∧ L.cmd = s.lastCmd

end Sys2Proof.Safety
end

