-- ==== Sys2Proof/Certificates/Slice0/Obligations.lean ====
section
/-! DEFINITION. The statements about the model, for the provers. Each docstring names the rule of spec/ it formalises. -/

open Sys2Proof Sys2Proof.Machine Sys2Proof.Safety

/-! ### Encoding -/

/-- 30_encoding.md R100 to R106: the decoder reads back every well-formed command from its word, and from its four byte lanes
at the head of any byte stream. -/
def Obligations.DecodeOfEncodedCommand : Prop :=
  ∀ (i : Instr) (rest : List Byte), i.WellFormed →
    decode (encode i) = i ∧ decodeBytes (byteLanes (encode i) ++ rest) = .ok (i, rest)

/-- 30_encoding.md R106, R107: every 32-bit word decodes to a well-formed command, and that command's word is the word. -/
def Obligations.EveryWordIsOneCommand : Prop :=
  ∀ w : Word, (decode w).WellFormed ∧ encode (decode w) = w

/-- 30_encoding.md R113: every word matches exactly one row of the opcode map, the row of the command it decodes to. -/
def Obligations.EveryWordMatchesExactlyOneRow : Prop :=
  ∀ w : Word, opcodeRow (decode w) ∈ opcodeRows ∧ rowMatches w (opcodeRow (decode w)) = true ∧
    ∀ r ∈ opcodeRows, rowMatches w r = true → r = opcodeRow (decode w)

/-- 30_encoding.md R108: the canonical command words. -/
def Obligations.CanonicalCommandWords : Prop :=
  decode 0x00000000#32 = .copy 0#4 0#24 ∧ decode 0x00000001#32 = .cmId 0#24 ∧ decode 0x00000011#32 = .cmGray 0#24 ∧
  decode 0x00000021#32 = .cmBin 0#24 ∧ decode 0x00000031#32 = .cmUser 0#24 ∧ decode 0x00000002#32 = .firId 0#24 ∧
  decode 0x00000012#32 = .firBlur 0#24 ∧ decode 0x00000022#32 = .firEdge 0#24 ∧ decode 0x00000032#32 = .firUser 0#24 ∧
  decode 0x00000003#32 = .blur 0#4 0#24

/-- 30_encoding.md R104, R105: on the unit's turn bits [31:8] do not matter, and for OP = 0x0 and 0x3 neither does SEL; on the
host's turn an accepted word is kept whole in CMD's read-back. -/
def Obligations.IgnoredBitsHaveNoEffect : Prop :=
  (∀ (w v : Word) (s : State), w.extractLsb' 0 8 = v.extractLsb' 0 8 → s.turn = .unit →
    exec (decode w) s = exec (decode v) s) ∧
  (∀ (w v : Word) (s : State), w.extractLsb' 0 4 = v.extractLsb' 0 4 →
    (w.extractLsb' 0 4 = 0x0#4 ∨ w.extractLsb' 0 4 = 0x3#4) → s.turn = .unit → exec (decode w) s = exec (decode v) s) ∧
  (∀ (w : Word) (s : State), s.turn = .host → s.busy = false → touchesDevice s (takeLatch w s) = false →
    ∃ t, exec (decode w) s = .next t ∧ readReg .cmd t = w)

/-! ### Steps -/

/-- 30_encoding.md R106, 10_state.md R29: when the host moves and its next statement writes a word to CMD, the step is `exec`
of the decoded word, with the statement and the event taken off. -/
def Obligations.StepRunsIssuedCommand : Prop :=
  (∀ (s : State) (w : Word) (ops : List HostOp) (rest : List Event),
    s.prog = asmWr s.platform .cmd w :: ops → s.sched = .hostMove :: rest →
      step s = exec (decode w) { s with sched := rest, prog := ops, turn := .host }) ∧
  (∀ (s : State) (w : Word) (ops : List HostOp),
    s.prog = asmWr s.platform .cmd w :: ops → s.sched = [] → s.busy = false →
      step s = exec (decode w) { s with prog := ops, turn := .host }) ∧
  (∀ (s : State) (w : Word), step (s.withFetchWord 32 w.toNat) = exec (decode w) { s with turn := .host })

/-- 40_command.md R134: when the unit moves while BUSY = 1, the step is `exec` of the latched word's command; an exhausted
interleaving lets the unit move (log 2). -/
def Obligations.StepRunsLatchedCommand : Prop :=
  (∀ (s : State) (L : Latch) (rest : List Event), s.busy = true → s.lat = some L → s.sched = .unitMove :: rest →
    step s = exec (decode L.cmd) { s with sched := rest, turn := .unit }) ∧
  (∀ (s : State) (L : Latch), s.busy = true → s.lat = some L → s.sched = [] →
    step s = exec (decode L.cmd) { s with turn := .unit })

/-- 70_reset_and_hazards.md R253: the completion step is always enabled while BUSY = 1. Whatever host moves the interleaving
still holds, within as many steps and one more the machine is no longer busy, or the run has left the contract (a fault or a
refusal, which only a host statement or a buffer on a device raises). -/
def Obligations.CompletionIsReached : Prop :=
  ∀ (n : Nat) (s : State) (L : Latch), s.busy = true → s.lat = some L → s.sched = List.replicate n .hostMove →
    ∃ k ≤ n + 1, ∀ t, Host.Core.run Sys2Proof.core k s = .next t → t.busy = false

/-! ### Reset -/

/-- 70_reset_and_hazards.md R240: the reset input sets every register to its reset value in one step, does not write memory,
and leaves the admitted output bytes of a running command at any value. -/
def Obligations.HardwareResetSetsEveryRegister : Prop :=
  ∀ (s : State) (rest : List Event), s.sched = .resetInput :: rest → s.mem.wf = true →
    ∃ t, step s = .next t ∧ RegistersAtReset t ∧ KeptByReset s t ∧ t.sched = rest

/-- 70_reset_and_hazards.md R242: a host write to CTRL with bit 1 = 1 has the effect of the hardware reset in one step,
whatever else it holds and whether or not BUSY = 1. -/
def Obligations.SoftResetSetsEveryRegister : Prop :=
  ∀ (s : State) (v : Word), v.getLsbD 1 = true → s.mem.wf = true →
    ∃ t, step (hostDoes s (asmWr s.platform .ctrl v)) = .next t ∧ RegistersAtReset t ∧ KeptByReset s t ∧ t.sched = s.sched

/-- 10_state.md R44: the state after reset. Its memory lists nothing (log 4). -/
def Obligations.PowerOnState : Prop :=
  RegistersAtReset State.reset ∧ ∀ a, State.reset.mem.read a = Config.unwrittenByte

/-! ### Registers -/

/-- 10_state.md R30, R31: SRC_BASE and DST_BASE keep bits [31:2]; bits [1:0] read 0. Nothing else changes. -/
def Obligations.BaseRegisterWrites : Prop :=
  ∀ (s : State) (v : Word),
    (∃ t, step (hostDoes s (asmWr s.platform .srcBase v)) = .next t ∧
      t = { s with turn := .host, srcBase := v.extractLsb' 2 30 } ∧ readReg .srcBase t = v &&& 0xFFFFFFFC#32) ∧
    (∃ t, step (hostDoes s (asmWr s.platform .dstBase v)) = .next t ∧
      t = { s with turn := .host, dstBase := v.extractLsb' 2 30 } ∧ readReg .dstBase t = v &&& 0xFFFFFFFC#32)

/-- 10_state.md R32 to R36: WIDTH and HEIGHT keep bits [15:0] and read 0 in [31:16], SRC_LEN and BLUR_RADIUS keep all 32 bits,
FIR_CFG keeps bit 0 and reads 0 above it. Nothing else changes. -/
def Obligations.ConfigurationRegisterWrites : Prop :=
  ∀ (s : State) (v : Word),
    (∃ t, step (hostDoes s (asmWr s.platform .width v)) = .next t ∧
      t = { s with turn := .host, width := v.extractLsb' 0 16 } ∧ readReg .width t = v &&& 0x0000FFFF#32) ∧
    (∃ t, step (hostDoes s (asmWr s.platform .height v)) = .next t ∧
      t = { s with turn := .host, height := v.extractLsb' 0 16 } ∧ readReg .height t = v &&& 0x0000FFFF#32) ∧
    (∃ t, step (hostDoes s (asmWr s.platform .srcLen v)) = .next t ∧
      t = { s with turn := .host, srcLen := v } ∧ readReg .srcLen t = v) ∧
    (∃ t, step (hostDoes s (asmWr s.platform .blurRadius v)) = .next t ∧
      t = { s with turn := .host, blurRadius := v } ∧ readReg .blurRadius t = v) ∧
    (∃ t, step (hostDoes s (asmWr s.platform .firCfg v)) = .next t ∧
      t = { s with turn := .host, firNorm := v.getLsbD 0 } ∧ readReg .firCfg t = v &&& 0x00000001#32)

/-- 10_state.md R37, R38: a write to one coefficient register changes that entry, all 32 bits, and nothing else. -/
def Obligations.CoefficientWrites : Prop :=
  (∀ (s : State) (v : Word) (j : Fin 20), ∃ t,
    step (hostDoes s (asmWr s.platform (.cmCoef j) v)) = .next t ∧
    t = { s with turn := .host, cmCoef := t.cmCoef } ∧
    ∀ k : Fin 20, readReg (.cmCoef k) t = if k = j then v else readReg (.cmCoef k) s) ∧
  (∀ (s : State) (v : Word) (j : Fin 9), ∃ t,
    step (hostDoes s (asmWr s.platform (.firCoef j) v)) = .next t ∧
    t = { s with turn := .host, firCoef := t.firCoef } ∧
    ∀ k : Fin 9, readReg (.firCoef k) t = if k = j then v else readReg (.firCoef k) s)

/-- 10_state.md R22, R39: ID and the reserved offsets ignore writes; ID reads 0x434D5501 and the reserved offsets read 0. -/
def Obligations.IdAndReservedIgnoreWrites : Prop :=
  ∀ (s : State) (v : Word),
    (step (hostDoes s (.regWrite s.platform.cmuBase .word v)) = .next { s with turn := .host } ∧
     step (hostDoes s (.regRead s.platform.cmuBase .word)) = .next { s with turn := .host, rdata := 0x434D5501#32 }) ∧
    ∀ off, off % 4 = 0 →
      (0x02C ≤ off ∧ off ≤ 0x03C ∨ 0x090 ≤ off ∧ off ≤ 0x09C ∨ 0x0C4 ≤ off ∧ off ≤ 0xFFC) →
      step (hostDoes s (.regWrite (s.platform.cmuBase + off) .word v)) = .next { s with turn := .host } ∧
      step (hostDoes s (.regRead (s.platform.cmuBase + off) .word)) = .next { s with turn := .host, rdata := 0#32 }

/-- 10_state.md R23: a CTRL write with bit 1 = 0 sets IRQ_EN to bit 0, busy or not; bits [31:1] read 0. -/
def Obligations.CtrlWriteSetsInterruptEnable : Prop :=
  ∀ (s : State) (v : Word), v.getLsbD 1 = false →
    ∃ t, step (hostDoes s (asmWr s.platform .ctrl v)) = .next t ∧
      t = { s with turn := .host, ctrlIrqEn := v.getLsbD 0 } ∧ readReg .ctrl t = v &&& 0x00000001#32

/-- 10_state.md R25: the STATUS write rule. -/
def Obligations.StatusWriteOneToClear : Prop :=
  ∀ (s : State) (v : Word), ∃ t, step (hostDoes s (asmWr s.platform .status v)) = .next t ∧
    t.done = (if v.getLsbD 1 then false else s.done) ∧
    t.err = (if v.getLsbD 2 then false else s.err) ∧
    t.errcode = (if v.getLsbD 2 then 0#4 else s.errcode) ∧
    t.ovr = (if v.getLsbD 3 then false else s.ovr) ∧
    t = { s with turn := .host, done := t.done, err := t.err, errcode := t.errcode, ovr := t.ovr }

/-- 10_state.md R24: the layout of STATUS. -/
def Obligations.StatusLayout : Prop :=
  ∀ s : State, (readReg .status s).getLsbD 0 = s.busy ∧ (readReg .status s).getLsbD 1 = s.done ∧
    (readReg .status s).getLsbD 2 = s.err ∧ (readReg .status s).getLsbD 3 = s.ovr ∧
    (readReg .status s).extractLsb' 8 4 = s.errcode ∧ (readReg .status s).extractLsb' 4 4 = 0#4 ∧
    (readReg .status s).extractLsb' 12 20 = 0#20

/-- 20_memory.md R78, 30_encoding.md R111: a register read returns the register's value to the host and has no side effect;
`poll` reads the register once a step and stays the host's next statement until the masked value is the awaited one. -/
def Obligations.RegisterReadsAndPolls : Prop :=
  (∀ (s : State) (r : Reg),
    step (hostDoes s (asmRd s.platform r)) = .next { s with turn := .host, rdata := readReg r s }) ∧
  (∀ (s : State) (r : Reg) (mask val : Word),
    step (hostDoes s (asmPoll s.platform r mask val)) =
      if readReg r s &&& mask = val then .next { s with turn := .host, rdata := readReg r s }
      else .next { s with turn := .host, rdata := readReg r s, prog := asmPoll s.platform r mask val :: s.prog })

/-- 20_memory.md R76 (93 U14): a host access to the window that is not 32 bits wide, or not aligned to 4, is refused. The
alignment is that of the offset (log 11). -/
def Obligations.OtherRegisterAccessesAreRefused : Prop :=
  ∀ (s : State) (off : Nat) (size : AccessSize) (v m : Word), off < 0x1000 →
    (size ≠ .word ∨ off % 4 ≠ 0 →
      step (hostDoes s (.regWrite (s.platform.cmuBase + off) size v)) = .refused .registerAccess ∧
      step (hostDoes s (.regRead (s.platform.cmuBase + off) size)) = .refused .registerAccess) ∧
    (off % 4 ≠ 0 → step (hostDoes s (.poll (s.platform.cmuBase + off) m v)) = .refused .registerAccess)

/-- 10_state.md R41: the interrupt line is IRQ_EN and (DONE or ERR), a function of the state at every moment. -/
def Obligations.InterruptLine : Prop :=
  ∀ s : State, irq s = true ↔ (readReg .ctrl s).getLsbD 0 = true ∧
    ((readReg .status s).getLsbD 1 = true ∨ (readReg .status s).getLsbD 2 = true)

/-! ### Acceptance -/

/-- 40_command.md R130, R131: a CMD write while BUSY = 0 whose latched values pass the checks of R132, with no buffer on memory
with side effects (log 7), is accepted: CMD reads back the word, DONE, ERR and ERRCODE are cleared, the latch is taken (the
notes of unseen host stores with it, log 9), BUSY is set. Nothing else changes, memory and OVR included. It holds for every
command. -/
def Obligations.CommandIsAccepted : Prop :=
  ∀ (i : Instr) (s : State), s.turn = .host → s.busy = false →
    s.width ≠ 0#16 → s.height ≠ 0#16 → s.width.toNat * s.height.toNat = s.srcLen.toNat →
    4 * s.srcBase.toNat + 4 * (s.width.toNat * s.height.toNat) ≤ 2 ^ 32 →
    4 * s.dstBase.toNat + 4 * (s.width.toNat * s.height.toNat) ≤ 2 ^ 32 →
    (4 * s.dstBase.toNat + 4 * (s.width.toNat * s.height.toNat) ≤ 4 * s.srcBase.toNat ∨
      4 * s.srcBase.toNat + 4 * (s.width.toNat * s.height.toNat) ≤ 4 * s.dstBase.toNat) →
    touchesDevice s (takeLatch (encode i) s) = false →
    exec i s = .next { s with
      lastCmd := encode i, done := false, err := false, errcode := 0#4, busy := true,
      lat := some ⟨encode i, s.srcBase, s.dstBase, s.width, s.height, s.srcLen, s.blurRadius, s.firNorm, s.cmCoef,
        s.firCoef, s.unseen⟩ }

/-- 60_exceptions.md R211: INVALID_BUFFER for every command word when W = 0, H = 0 or W*H ≠ SRC_LEN: ERR = 1, ERRCODE = 1,
BUSY stays 0; memory and every register but STATUS and CMD's read-back are unchanged. -/
def Obligations.InvalidBufferIsRefused : Prop :=
  ∀ (i : Instr) (s : State), s.turn = .host → s.busy = false →
    (s.width = 0#16 ∨ s.height = 0#16 ∨ s.width.toNat * s.height.toNat ≠ s.srcLen.toNat) →
    exec i s = .next { s with lastCmd := encode i, done := false, err := true, errcode := 1#4, busy := false, lat := none }

/-- 60_exceptions.md R212: ADDR_RANGE, only after INVALID_BUFFER passes, when a range runs past 2^32: ERR = 1, ERRCODE = 2,
memory untouched. Ranges that end at 2^32 or below never give it. -/
def Obligations.AddressRangeIsRefused : Prop :=
  (∀ (i : Instr) (s : State), s.turn = .host → s.busy = false →
    s.width ≠ 0#16 → s.height ≠ 0#16 → s.width.toNat * s.height.toNat = s.srcLen.toNat →
    (2 ^ 32 < 4 * s.srcBase.toNat + 4 * (s.width.toNat * s.height.toNat) ∨
      2 ^ 32 < 4 * s.dstBase.toNat + 4 * (s.width.toNat * s.height.toNat)) →
    exec i s = .next { s with
      lastCmd := encode i, done := false, err := true, errcode := 2#4, busy := false, lat := none }) ∧
  (∀ (i : Instr) (s : State), s.turn = .host → s.busy = false →
    4 * s.srcBase.toNat + 4 * (s.width.toNat * s.height.toNat) ≤ 2 ^ 32 →
    4 * s.dstBase.toNat + 4 * (s.width.toNat * s.height.toNat) ≤ 2 ^ 32 →
    ∀ t, exec i s = .next t → t.errcode ≠ 2#4)

/-- 60_exceptions.md R213: OVERLAP, only after ADDR_RANGE passes, when the two ranges share a byte: ERR = 1, ERRCODE = 3,
memory untouched. Ranges that share no byte, adjacent ones included, never give it. -/
def Obligations.OverlapIsRefused : Prop :=
  (∀ (i : Instr) (s : State), s.turn = .host → s.busy = false →
    s.width ≠ 0#16 → s.height ≠ 0#16 → s.width.toNat * s.height.toNat = s.srcLen.toNat →
    4 * s.srcBase.toNat + 4 * (s.width.toNat * s.height.toNat) ≤ 2 ^ 32 →
    4 * s.dstBase.toNat + 4 * (s.width.toNat * s.height.toNat) ≤ 2 ^ 32 →
    4 * s.srcBase.toNat < 4 * s.dstBase.toNat + 4 * (s.width.toNat * s.height.toNat) →
    4 * s.dstBase.toNat < 4 * s.srcBase.toNat + 4 * (s.width.toNat * s.height.toNat) →
    exec i s = .next { s with
      lastCmd := encode i, done := false, err := true, errcode := 3#4, busy := false, lat := none }) ∧
  (∀ (i : Instr) (s : State), s.turn = .host → s.busy = false →
    (4 * s.dstBase.toNat + 4 * (s.width.toNat * s.height.toNat) ≤ 4 * s.srcBase.toNat ∨
      4 * s.srcBase.toNat + 4 * (s.width.toNat * s.height.toNat) ≤ 4 * s.dstBase.toNat) →
    ∀ t, exec i s = .next t → t.errcode ≠ 3#4)

/-- 40_command.md R133: a CMD write while BUSY = 1 sets OVR and does nothing else. -/
def Obligations.BusyCommandIsDropped : Prop :=
  ∀ (i : Instr) (s : State), s.turn = .host → s.busy = true → exec i s = .next { s with ovr := true }

/-! ### Completion -/

/-- 40_command.md R134: the completion is enabled only while BUSY = 1; on the unit's turn an idle machine is left as it is. -/
def Obligations.IdleUnitDoesNothing : Prop :=
  ∀ (i : Instr) (s : State), s.turn = .unit → s.busy = false → exec i s = .next s

/-- 40_command.md R136, R137, 41_color_matrix.md R155, R159, 42_fir_convolver.md R175, R179: the identity commands complete
with the output equal to the input, byte for byte. -/
def Obligations.IdentityCommandsCopyTheInput : Prop :=
  ∀ (i : Instr) (s : State) (L : Latch),
    ((∃ sel ign, i = .copy sel ign) ∨ (∃ ign, i = .cmId ign) ∨ (∃ ign, i = .firId ign) ∨
      (∃ sel ign, i = .cmRsvLo sel ign) ∨ (∃ sel ign, i = .cmRsvHi sel ign) ∨
      (∃ sel ign, i = .firRsvLo sel ign) ∨ (∃ sel ign, i = .firRsvHi sel ign) ∨
      (∃ op sel ign, i = .opRsvLo op sel ign) ∨ (∃ op sel ign, i = .opRsvHi op sel ign)) →
    ReadyToComplete s L → s.mem.wf = true →
    ∃ t, exec i s = .next t ∧ CompletedWith s t L (inPixel s L)

/-- 41_color_matrix.md R156: CM.GRAY completes with y = chan(L(p), 65536) in R, G and B, and alpha unchanged, where
L(p) = wR*R + wG*G + wB*B with LUMA_W = (13959, 46858, 4719). -/
def Obligations.GrayscaleCompletes : Prop :=
  ∀ (ign : BitVec 24) (s : State) (L : Latch), ReadyToComplete s L → s.mem.wf = true →
    ∃ t, exec (.cmGray ign) s = .next t ∧ CompletedWith s t L fun x y =>
      let p := inPixel s L x y
      let v := chan (13959 * p.r.toNat + 46858 * p.g.toNat + 4719 * p.b.toNat) 65536
      { r := v, g := v, b := v, a := p.a }

/-- 41_color_matrix.md R157, R153: CM.BIN completes with 255 in R, G and B when the unrounded luminance is at least 128*65536,
else 0, and alpha unchanged. -/
def Obligations.BinaryThresholdCompletes : Prop :=
  ∀ (ign : BitVec 24) (s : State) (L : Latch), ReadyToComplete s L → s.mem.wf = true →
    ∃ t, exec (.cmBin ign) s = .next t ∧ CompletedWith s t L fun x y =>
      let p := inPixel s L x y
      let v : Byte := if 13959 * p.r.toNat + 46858 * p.g.toNat + 4719 * p.b.toNat ≥ 8388608 then 255#8 else 0#8
      { r := v, g := v, b := v, a := p.a }

/-- 41_color_matrix.md R158, R151: CM.USER completes with the affine stage of the latched CM_COEF, row c = CM_COEF[5c .. 5c+4]
on (R, G, B, A, 1), for all four channels. -/
def Obligations.UserMatrixCompletes : Prop :=
  ∀ (ign : BitVec 24) (s : State) (L : Latch), ReadyToComplete s L → s.mem.wf = true →
    ∃ t, exec (.cmUser ign) s = .next t ∧ CompletedWith s t L fun x y =>
      let p := inPixel s L x y
      let m := fun j : Fin 20 => (L.cmCoef[j.val]).toInt
      let row := fun m0 m1 m2 m3 m4 : Int =>
        chan (m0 * p.r.toNat + m1 * p.g.toNat + m2 * p.b.toNat + m3 * p.a.toNat + m4) 65536
      { r := row (m 0) (m 1) (m 2) (m 3) (m 4), g := row (m 5) (m 6) (m 7) (m 8) (m 9),
        b := row (m 10) (m 11) (m 12) (m 13) (m 14), a := row (m 15) (m 16) (m 17) (m 18) (m 19) }

/-- 42_fir_convolver.md R177: FIR.BLUR completes with the taps (32768, 65536, 32768; 65536, 131072, 65536; 32768, 65536,
32768) on the edge-clamped neighbours, divided by their sum 524288, and alpha unchanged. -/
def Obligations.FirBlurCompletes : Prop :=
  ∀ (ign : BitVec 24) (s : State) (L : Latch), ReadyToComplete s L → s.mem.wf = true →
    ∃ t, exec (.firBlur ign) s = .next t ∧
      CompletedWith s t L (convolved s L
        (fun i j => if i.val = 1 ∧ j.val = 1 then 131072 else if i.val = 1 ∨ j.val = 1 then 65536 else 32768) 524288)

/-- 42_fir_convolver.md R178: FIR.EDGE completes with the centre tap 8.0 and eight taps -1.0, unnormalized, and alpha
unchanged. -/
def Obligations.FirEdgeCompletes : Prop :=
  ∀ (ign : BitVec 24) (s : State) (L : Latch), ReadyToComplete s L → s.mem.wf = true →
    ∃ t, exec (.firEdge ign) s = .next t ∧
      CompletedWith s t L (convolved s L (fun i j => if i.val = 1 ∧ j.val = 1 then 524288 else -65536) 65536)

/-- 42_fir_convolver.md R176, R172, R173: FIR.USER completes with the latched FIR_COEF, K[i][j] = FIR_COEF[3i + j], divided by
the signed sum S when NORM = 1 and S ≠ 0, else by 65536, and alpha unchanged. -/
def Obligations.FirUserCompletes : Prop :=
  ∀ (ign : BitVec 24) (s : State) (L : Latch), ReadyToComplete s L → s.mem.wf = true →
    ∃ t, exec (.firUser ign) s = .next t ∧
      let K := fun i j : Fin 3 => (L.firCoef[3 * i.val + j.val]).toInt
      let S := nineTaps K fun _ _ => 1
      CompletedWith s t L (convolved s L K (if L.firNorm = true ∧ S ≠ 0 then S else 65536))

/-- 43_separable_blur.md R194, R191 to R193: BLUR completes with the identity when the latched radius is not positive;
otherwise, with n = min(ceil(r), 16), with the direct 2-D weighted average of the binomial weights C(2n, n + i), rounded once
over 4^n * 4^n, and alpha unchanged. -/
def Obligations.SeparableBlurCompletes : Prop :=
  ∀ (sel : BitVec 4) (ign : BitVec 24) (s : State) (L : Latch), ReadyToComplete s L → s.mem.wf = true →
    ∃ t, exec (.blur sel ign) s = .next t ∧
      (L.blurRadius.toInt ≤ 0 → CompletedWith s t L (inPixel s L)) ∧
      (0 < L.blurRadius.toInt →
        let n := min ((L.blurRadius.toInt + 65535) / 65536).toNat 16
        CompletedWith s t L fun x y =>
          { r := chan (binomialSum s L n x y 0) (4 ^ n * 4 ^ n), g := chan (binomialSum s L n x y 1) (4 ^ n * 4 ^ n),
            b := chan (binomialSum s L n x y 2) (4 ^ n * 4 ^ n), a := (inPixel s L x y).a })

/-- 60_exceptions.md R214: every command whose input or output range holds a byte the platform does not admit ends with ERR = 1
and ERRCODE = 4; the admitted output bytes take any value (those of the draw), and no other byte is written. -/
def Obligations.BusErrorEndsTheCommand : Prop :=
  ∀ (i : Instr) (s : State) (L : Latch), s.turn = .unit → s.busy = true → s.lat = some L → s.mem.wf = true →
    touchesDevice s L = false →
    (∃ a, (inInput L a = true ∨ inOutput L a = true) ∧ memOk s.platform a = false) →
    ∃ t, exec i s = .next t ∧
      t = { s with
        mem := t.mem, err := true, errcode := 4#4, busy := false, lat := none, unseen := settleNotes s L,
        draws := s.draws + 1 } ∧
      (∀ a, inOutput L a = true → memOk s.platform a = true → t.mem.read a = Config.freeByte s.draws a) ∧
      (∀ a, (inOutput L a = false ∨ memOk s.platform a = false) → t.mem.read a = s.mem.read a)

/-- 20_memory.md R78 (93 U15): a command whose input or output range holds an admitted byte with side effects is outside the
contract. A CMD write that would be accepted faults, and so does a completion (log 7). -/
def Obligations.SideEffectBufferFaults : Prop :=
  (∀ (i : Instr) (s : State) (a : Nat), s.turn = .host → s.busy = false → checkLatch (takeLatch (encode i) s) = none →
    (inInput (takeLatch (encode i) s) a = true ∨ inOutput (takeLatch (encode i) s) a = true) →
    memOk s.platform a = true → isDevice s.platform a = true → exec i s = .fault .sideEffectBuffer) ∧
  (∀ (i : Instr) (s : State) (L : Latch) (a : Nat), s.turn = .unit → s.busy = true → s.lat = some L →
    (inInput L a = true ∨ inOutput L a = true) → memOk s.platform a = true → isDevice s.platform a = true →
    exec i s = .fault .sideEffectBuffer)

/-- 20_memory.md R89, R77, R81: a command that completes with DONE changes no byte of the input range and none outside the
output range, whatever the command. -/
def Obligations.CompletionWritesOnlyTheOutputRange : Prop :=
  ∀ (i : Instr) (s t : State) (L : Latch), MachineInv s → s.turn = .unit → s.busy = true → s.lat = some L →
    exec i s = .next t → t.done = true →
    ∀ a, (inInput L a = true ∨ inOutput L a = false) → t.mem.read a = s.mem.read a

/-- 10_state.md R40: the running command reads only the latch. Two states with the same latch, memory and platform, whose live
registers differ in any way, complete any command with the same memory and the same outcome flags. -/
def Obligations.RunningCommandReadsOnlyTheLatch : Prop :=
  ∀ (i : Instr) (s s' t : State), s.turn = .unit → s'.turn = .unit → s.busy = true → s'.busy = true →
    s.lat = s'.lat → s.lat.isSome = true → s.mem = s'.mem → s.platform = s'.platform → s.draws = s'.draws →
    exec i s = .next t →
    ∃ t', exec i s' = .next t' ∧ t'.mem = t.mem ∧ t'.busy = false ∧ t'.lat = none ∧
      (s'.done = s.done → s'.err = s.err → s'.errcode = s.errcode →
        t'.done = t.done ∧ t'.err = t.err ∧ t'.errcode = t.errcode)

/-- 40_command.md R139: the output is a function of the latched registers and the input range alone. Two runs whose latches are
equal and whose input bytes agree, on any platform and any other memory, leave the same bytes in the output range. -/
def Obligations.OutputDependsOnlyOnTheInputRange : Prop :=
  ∀ (i : Instr) (s s' : State) (L : Latch), ReadyToComplete s L → ReadyToComplete s' L →
    s.mem.wf = true → s'.mem.wf = true → (∀ a, inInput L a = true → unitByte s L a = unitByte s' L a) →
    ∃ t t', exec i s = .next t ∧ exec i s' = .next t' ∧ t.done = true ∧ t'.done = true ∧
      ∀ a, inOutput L a = true → t.mem.read a = t'.mem.read a

/-- 40_command.md R130, R134, 20_memory.md R82: a command written to CMD in an idle machine whose registers pass the checks,
with the unit moving next, is complete two steps later: DONE, the word in CMD, and memory changed in the output range only. -/
def Obligations.IssueThenComplete : Prop :=
  ∀ (i : Instr) (s : State) (ops : List HostOp) (rest : List Event), i.WellFormed → MachineInv s → s.busy = false →
    s.prog = asmWr s.platform .cmd (encode i) :: ops → s.sched = .hostMove :: .unitMove :: rest →
    checkLatch (takeLatch (encode i) s) = none → allAdmitted s (takeLatch (encode i) s) = true →
    touchesDevice s (takeLatch (encode i) s) = false →
    ∃ t u, step s = .next t ∧ t.busy = true ∧ t.mem = s.mem ∧
      step t = .next u ∧ u.busy = false ∧ u.done = true ∧ u.err = false ∧ u.lastCmd = encode i ∧ u.ovr = s.ovr ∧
      u.prog = ops ∧ u.sched = rest ∧
      ∀ a, inOutput (takeLatch (encode i) s) a = false → u.mem.read a = s.mem.read a

/-! ### The whole machine -/

/-- 10_state.md R45: the invariant holds after reset. -/
def Obligations.ResetMeetsTheInvariant : Prop := MachineInv State.reset

/-- 10_state.md R26, R27, R45, 60_exceptions.md R210: every step keeps the invariant. -/
def Obligations.EveryStepKeepsTheInvariant : Prop :=
  ∀ s t : State, MachineInv s → step s = .next t → MachineInv t

/-- 10_state.md R26, R27: DONE is set only by the completion of a running command, ERR only by a completion or by a CMD write
taken while BUSY = 0; no other host statement and no reset sets either. -/
def Obligations.OnlyTheLifecycleSetsDoneAndErr : Prop :=
  ∀ s t : State, step s = .next t →
    (s.done = false → t.done = true → s.busy = true ∧ t.busy = false ∧ t.turn = .unit) ∧
    (s.err = false → t.err = true → s.busy = true ∧ t.busy = false ∧ t.turn = .unit ∨
      s.busy = false ∧ t.turn = .host ∧ ∃ w ops, s.prog = asmWr s.platform .cmd w :: ops ∧ t.lastCmd = w)

/-- 10_state.md R28: OVR is set only by a CMD write while BUSY = 1, and cleared only by a STATUS write with bit 3 = 1 or by a
reset, so not by an acceptance; and it does not drive the interrupt line. -/
def Obligations.OverrunIsSetAndClearedOnlyAsStated : Prop :=
  (∀ s t : State, step s = .next t →
    (s.ovr = false → t.ovr = true →
      s.busy = true ∧ t.turn = .host ∧ ∃ w ops, s.prog = asmWr s.platform .cmd w :: ops) ∧
    (s.ovr = true → t.ovr = false → (∃ rest, s.sched = .resetInput :: rest) ∨
      t.turn = .host ∧ ∃ v ops, s.prog = asmWr s.platform .status v :: ops ∧ v.getLsbD 3 = true ∨
        s.prog = asmWr s.platform .ctrl v :: ops ∧ v.getLsbD 1 = true)) ∧
  (∀ s : State, irq { s with ovr := true } = irq { s with ovr := false })

/-- 20_memory.md R82 (b): BUSY falls only in the step that performs the command's writes, or in a reset: while BUSY stays 1, no
step of the unit has changed a byte of the running command's ranges. -/
def Obligations.BuffersAreStableWhileBusy : Prop :=
  ∀ (s t : State) (L : Latch) (a : Nat), s.busy = true → s.lat = some L →
    (inInput L a = true ∨ inOutput L a = true) → step s = .next t → t.busy = true →
    t.mem.read a = s.mem.read a ∧ t.lat = some L

/-! ### The host's memory accesses -/

/-- 20_memory.md R83 (93 U13): a host store that touches the running command's input or output range while BUSY = 1 faults. -/
def Obligations.HostStoreToBusyBufferFaults : Prop :=
  ∀ (s : State) (L : Latch) (addr v : Word) (size : AccessSize) (k : Nat), s.busy = true → s.lat = some L →
    addr.toNat + sizeBytes size ≤ 2 ^ 32 → (∀ j < sizeBytes size, isDevice s.platform (addr.toNat + j) = false) →
    k < sizeBytes size → (inInput L (addr.toNat + k) = true ∨ inOutput L (addr.toNat + k) = true) →
    step (hostDoes s (.memWrite addr size v)) = .fault .hostWroteBusyBuffer

/-- 20_memory.md R83 (93 U12): a host load while BUSY = 1 returns the unchanged bytes of the input range, and any value (the
draw's) for bytes of the output range; it changes no register, no memory. -/
def Obligations.HostLoadWhileBusy : Prop :=
  ∀ (s : State) (L : Latch) (addr : Word), s.busy = true → s.lat = some L → addr.toNat + 4 ≤ 2 ^ 32 →
    (∀ j < 4, isDevice s.platform (addr.toNat + j) = false) →
    ∃ t, step (hostDoes s (asmMemRd32 addr)) = .next t ∧
      t = { s with turn := .host, rdata := t.rdata, draws := s.draws + 1 } ∧
      ∀ j < 4, t.rdata.extractLsb' (8 * j) 8 =
        if inOutput L (addr.toNat + j) then Config.freeByte s.draws (addr.toNat + j) else s.mem.read (addr.toNat + j)

/-- 20_memory.md R72, R82 (a), 93 U23: a host store in an idle machine puts its bytes in memory, least significant first, and
notes for each the older byte and the stored one; a command accepted before the host's fence reads at every address memory's
byte or a noted older byte there, and one accepted after the fence reads memory (log 9). -/
def Obligations.HostStoreIsSeenAfterTheFence : Prop :=
  ∀ (s : State) (addr v : Word), s.mem.wf = true → s.busy = false → addr.toNat + 4 ≤ 2 ^ 32 →
    (∀ j < 4, isDevice s.platform (addr.toNat + j) = false) →
    ∃ t u, step (hostDoes s (asmMemWr32 addr v)) = .next t ∧
      (∀ j < 4, t.mem.read (addr.toNat + j) = v.extractLsb' (8 * j) 8) ∧
      (∀ a, (a < addr.toNat ∨ addr.toNat + 4 ≤ a) → t.mem.read a = s.mem.read a) ∧
      (∀ j < 4, ⟨addr.toNat + j, s.mem.read (addr.toNat + j), v.extractLsb' (8 * j) 8⟩ ∈ t.unseen) ∧
      (∀ i t' L, exec i t = .next t' → t'.lat = some L → t.turn = .host →
        ∀ a, unitByte t' L a = t.mem.read a ∨ ∃ n ∈ t.unseen, n.addr = a ∧ unitByte t' L a = n.older) ∧
      step (hostDoes t .fence) = .next u ∧ u.mem = t.mem ∧ u.turn = .host ∧ u.busy = false ∧
      ∀ i u' L, exec i u = .next u' → u'.lat = some L → ∀ a, unitByte u' L a = u.mem.read a

/-! ### Arithmetic and engines -/

/-- 00_scope.md R11: `rdiv` is the greatest integer not above n/d + 1/2 for d > 0, and rdiv(-n, -d) for d < 0; `clamp8` keeps
[0, 255]; a channel result is the clamped rounded value, in one byte. -/
def Obligations.RoundingAndClamping : Prop :=
  (∀ n d : Int, 0 < d → 2 * d * rdiv n d ≤ 2 * n + d ∧ 2 * n + d < 2 * d * (rdiv n d + 1)) ∧
  (∀ n d : Int, d < 0 → rdiv n d = rdiv (-n) (-d)) ∧
  (∀ v : Int, clamp8 v = if v < 0 then 0 else if 255 < v then 255 else v) ∧
  (∀ n d : Int, ((chan n d).toNat : Int) = clamp8 (rdiv n d)) ∧
  (∀ r : Int, 65536 * ceil16 r ≥ r ∧ 65536 * ceil16 r < r + 65536)

/-- 00_scope.md R12: the order of clamp and rounding does not change a result. The numerator clamped to [0, 255 d] and then
rounded gives the rounded value clamped to [0, 255]. -/
def Obligations.ClampAndRoundingCommute : Prop :=
  ∀ n d : Int, 0 < d → clamp8 (rdiv n d) = rdiv (min (max n 0) (255 * d)) d

/-- 41_color_matrix.md R156: the three grey channels are equal, a neutral grey maps to itself, and CM.GRAY is the matrix G of
R152. -/
def Obligations.GrayscaleIsNeutral : Prop :=
  (∀ p : Pixel, (grayPixel p).r = (grayPixel p).g ∧ (grayPixel p).g = (grayPixel p).b ∧ (grayPixel p).a = p.a) ∧
  (∀ v a : Byte, grayPixel ⟨v, v, v, a⟩ = ⟨v, v, v, a⟩) ∧
  (∀ p : Pixel, affinePixel grayMatrix p = grayPixel p)

/-- 41_color_matrix.md R157: CM.BIN is idempotent, and its output channels are equal and 0 or 255. -/
def Obligations.BinaryThresholdIsIdempotent : Prop :=
  ∀ p : Pixel, binaryPixel (binaryPixel p) = binaryPixel p ∧
    (binaryPixel p).r = (binaryPixel p).g ∧ (binaryPixel p).g = (binaryPixel p).b ∧
    ((binaryPixel p).r = 0#8 ∨ (binaryPixel p).r = 255#8) ∧ (binaryPixel p).a = p.a

/-- 42_fir_convolver.md R180: a uniform image under any kernel with norm and a nonzero sum is unchanged. -/
def Obligations.UniformImageIsUnchangedByFir : Prop :=
  ∀ (K : Fin 3 → Fin 3 → Int) (w h : Nat) (p : Pixel), kernelSum K ≠ 0 →
    firImage true K (buildImage w h fun _ _ => p) = buildImage w h fun _ _ => p

/-- 43_separable_blur.md R193, R194: a uniform image is unchanged by BLUR at every half-width, and every output channel lies
between the least and the greatest value of that channel in the input. -/
def Obligations.BlurStaysInTheInputRange : Prop :=
  (∀ (n w h : Nat) (p : Pixel), blurImage n (buildImage w h fun _ _ => p) = buildImage w h fun _ _ => p) ∧
  (∀ (n : Nat) (img : Image) (lo hi : Int) (c : Fin 4), 0 < n → c ≠ 3 →
    (∀ x y, x < img.width → y < img.height → lo ≤ channel (pixelAt img x y) c ∧ channel (pixelAt img x y) c ≤ hi) →
    ∀ x y, x < img.width → y < img.height →
      lo ≤ channel (blurPixel n img x y) c ∧ channel (blurPixel n img x y) c ≤ hi)

/-- 43_separable_blur.md R196: BLUR at half-width 1 equals FIR.BLUR on every image. -/
def Obligations.BlurAtHalfWidthOneIsFirBlur : Prop :=
  ∀ img : Image, blurImage 1 img = firImage true blur3Kernel img

/-- 43_separable_blur.md R192: the weights are C(2n, n + i), positive, symmetric, non-increasing in |i|, and sum to 4^n. -/
def Obligations.BlurWeightLaws : Prop :=
  ∀ n : Nat,
    (∀ i : Int, -n ≤ i → i ≤ n → blurWeight n i = ((2 * n).choose ((n : Int) + i).toNat : Int) ∧ 0 < blurWeight n i ∧
      blurWeight n (-i) = blurWeight n i) ∧
    (∀ i : Int, 0 ≤ i → i < n → blurWeight n (i + 1) ≤ blurWeight n i) ∧
    blurTotal n = 4 ^ n

/-- 43_separable_blur.md R191: the half-width is 0 exactly for a radius that is not positive, is min(ceil(r), 16) otherwise,
and does not fall when the radius grows. -/
def Obligations.HalfWidthOfRadius : Prop :=
  (∀ r : Int, halfWidth r = 0 ↔ r ≤ 0) ∧
  (∀ r : Int, ∀ k : Nat, k < 16 → (k : Int) * 65536 < r → r ≤ ((k : Int) + 1) * 65536 → halfWidth r = k + 1) ∧
  (∀ r : Int, 15 * 65536 < r → halfWidth r = 16) ∧
  (∀ r r' : Int, r ≤ r' → halfWidth r ≤ halfWidth r')

/-- 41_color_matrix.md R151, 42_fir_convolver.md R172, 43_separable_blur.md R193: the accumulators stay within the stated
widths for every pixel and every coefficient value, so nothing overflows (40_command.md R140). -/
def Obligations.AccumulatorBounds : Prop :=
  (∀ (L : Latch) (p : Pixel) (c : Fin 4), |cmAcc (latMatrix L) p c| < 2 ^ 42) ∧
  (∀ (L : Latch) (img : Image) (x y : Nat) (c : Fin 4), |firAcc (latKernel L) img x y c| < 2 ^ 43) ∧
  (∀ L : Latch, |kernelSum (latKernel L)| < 2 ^ 35) ∧
  (∀ (n : Nat) (img : Image) (x y : Nat) (c : Fin 4), n ≤ 16 →
    0 ≤ vPass n img x y c ∧ vPass n img x y c < 2 ^ 72)

/-! ### Unseen host stores across commands -/

/-- 20_memory.md R82 (a), 40_command.md R139: what a command reads is settled at its acceptance. A fence while it runs, with no
unseen store in its output range, leaves its own reads as they were and takes every note away, so that the command accepted
right after its completion reads memory. A completion leaves no note whose byte is older than the unit's own write, and keeps
every note outside the output range (log 9). A fence that would land an earlier store in the running command's output range
faults (R83). While there is no note only a host store makes one, and every command accepted while there is none reads memory,
whenever it reads. -/
def Obligations.FenceWhileBusyServesTheNextCommand : Prop :=
  (∀ (s : State) (L : Latch), s.busy = true → s.lat = some L → (∀ n ∈ s.unseen, inOutput L n.addr = false) →
    ∃ t, step (hostDoes s .fence) = .next t ∧ t = { s with turn := .host, unseen := [] } ∧
      (∀ a, unitByte t L a = unitByte s L a) ∧
      ∀ i u, exec i { t with turn := .unit } = .next u →
        ∀ j u' L', exec j { u with turn := .host } = .next u' → u'.lat = some L' → ∀ a, unitByte u' L' a = u'.mem.read a) ∧
  (∀ (i : Instr) (s t : State) (L : Latch), ReadyToComplete s L → exec i s = .next t →
    (∀ n ∈ t.unseen, (inOutput L n.addr = true → n.older = n.stored) ∧ (inOutput L n.addr = false → n ∈ s.unseen)) ∧
    (∀ n ∈ s.unseen, inOutput L n.addr = false → n ∈ t.unseen)) ∧
  (∀ (s : State) (L : Latch) (n : StoreNote), s.busy = true → s.lat = some L → n ∈ s.unseen → inOutput L n.addr = true →
    step (hostDoes s .fence) = .fault .hostWroteBusyBuffer) ∧
  (∀ s t : State, s.unseen = [] → step s = .next t → t.unseen ≠ [] →
    ∃ addr size data ops, s.prog = .memWrite addr size data :: ops) ∧
  (∀ (i : Instr) (s t : State) (L : Latch), s.unseen = [] → s.turn = .host → s.busy = false → exec i s = .next t →
    t.lat = some L → ∀ (u : State) (a : Nat), unitByte u L a = u.mem.read a)
end

