-- ==== Sys2Proof/Laws/Encoding.lean ====
section
/-! SUPPORT. Laws of the encoding: the fields of a command word, the byte lanes, and the decoder on each engine. -/

namespace Sys2Proof

@[simp] theorem opField_commandWord (op sel : BitVec 4) (ign : BitVec 24) : opField (commandWord op sel ign) = op := by
  simp only [opField, commandWord]
  ext i hi
  rw [BitVec.getElem_extractLsb', ← BitVec.getLsbD_eq_getElem, BitVec.getLsbD_append, BitVec.getLsbD_append]
  split_ifs <;> first | omega | (congr 1; omega)

@[simp] theorem selField_commandWord (op sel : BitVec 4) (ign : BitVec 24) : selField (commandWord op sel ign) = sel := by
  simp only [selField, commandWord]
  ext i hi
  rw [BitVec.getElem_extractLsb', ← BitVec.getLsbD_eq_getElem, BitVec.getLsbD_append, BitVec.getLsbD_append]
  split_ifs <;> first | omega | (congr 1; omega)

@[simp] theorem ignField_commandWord (op sel : BitVec 4) (ign : BitVec 24) : ignField (commandWord op sel ign) = ign := by
  simp only [ignField, commandWord]
  ext i hi
  rw [BitVec.getElem_extractLsb', ← BitVec.getLsbD_eq_getElem, BitVec.getLsbD_append, BitVec.getLsbD_append]
  split_ifs <;> first | omega | (congr 1; omega)

/-- A word is put together again from its fields. -/
@[simp] theorem commandWord_fields (w : Word) : commandWord (opField w) (selField w) (ignField w) = w := by
  simp only [opField, selField, ignField, commandWord]
  ext i hi
  rw [← BitVec.getLsbD_eq_getElem, BitVec.getLsbD_append, BitVec.getLsbD_append]
  split_ifs <;>
    · rw [BitVec.getLsbD_extractLsb', decide_eq_true (by omega), Bool.true_and, ← BitVec.getLsbD_eq_getElem]
      congr 1
      omega

/-- The byte lanes of a word give the word back. -/
@[simp] theorem wordOfLanes_lanes (w : Word) :
    wordOfLanes (w.extractLsb' 0 8) (w.extractLsb' 8 8) (w.extractLsb' 16 8) (w.extractLsb' 24 8) = w := by
  simp only [wordOfLanes]
  ext i hi
  rw [← BitVec.getLsbD_eq_getElem, BitVec.getLsbD_append, BitVec.getLsbD_append, BitVec.getLsbD_append]
  split_ifs <;>
    · rw [BitVec.getLsbD_extractLsb', decide_eq_true (by omega), Bool.true_and, ← BitVec.getLsbD_eq_getElem]
      congr 1
      omega

/-- Decoding the byte lanes of a word decodes the word. -/
@[simp] theorem decodeBytes_byteLanes (w : Word) (rest : List Byte) :
    decodeBytes (byteLanes w ++ rest) = .ok (decode w, rest) := by
  simp [decodeBytes, byteLanes]

theorem ne_of_le_toNat {w : Nat} {x y : BitVec w} (h : y.toNat < x.toNat) : x ≠ y := by
  rintro rfl; exact Nat.lt_irrefl _ h

/-! The decoder on each range of SEL and OP. -/

theorem decodeCm_lo {sel : BitVec 4} (ign : BitVec 24) (h : 4 ≤ sel.toNat) (h' : sel.toNat < 8) :
    decodeCm sel ign = .cmRsvLo sel ign := by
  have n0 : sel ≠ 0x0#4 := ne_of_le_toNat (by simp; omega)
  have n1 : sel ≠ 0x1#4 := ne_of_le_toNat (by simp; omega)
  have n2 : sel ≠ 0x2#4 := ne_of_le_toNat (by simp; omega)
  have n3 : sel ≠ 0x3#4 := ne_of_le_toNat (by simp; omega)
  simp only [decodeCm, n0, n1, n2, n3, h', if_true, if_false]

theorem decodeCm_hi {sel : BitVec 4} (ign : BitVec 24) (h : 8 ≤ sel.toNat) : decodeCm sel ign = .cmRsvHi sel ign := by
  have n0 : sel ≠ 0x0#4 := ne_of_le_toNat (by simp; omega)
  have n1 : sel ≠ 0x1#4 := ne_of_le_toNat (by simp; omega)
  have n2 : sel ≠ 0x2#4 := ne_of_le_toNat (by simp; omega)
  have n3 : sel ≠ 0x3#4 := ne_of_le_toNat (by simp; omega)
  simp only [decodeCm, n0, n1, n2, n3, if_false, Nat.not_lt.2 h]

theorem decodeFir_lo {sel : BitVec 4} (ign : BitVec 24) (h : 4 ≤ sel.toNat) (h' : sel.toNat < 8) :
    decodeFir sel ign = .firRsvLo sel ign := by
  have n0 : sel ≠ 0x0#4 := ne_of_le_toNat (by simp; omega)
  have n1 : sel ≠ 0x1#4 := ne_of_le_toNat (by simp; omega)
  have n2 : sel ≠ 0x2#4 := ne_of_le_toNat (by simp; omega)
  have n3 : sel ≠ 0x3#4 := ne_of_le_toNat (by simp; omega)
  simp only [decodeFir, n0, n1, n2, n3, h', if_true, if_false]

theorem decodeFir_hi {sel : BitVec 4} (ign : BitVec 24) (h : 8 ≤ sel.toNat) : decodeFir sel ign = .firRsvHi sel ign := by
  have n0 : sel ≠ 0x0#4 := ne_of_le_toNat (by simp; omega)
  have n1 : sel ≠ 0x1#4 := ne_of_le_toNat (by simp; omega)
  have n2 : sel ≠ 0x2#4 := ne_of_le_toNat (by simp; omega)
  have n3 : sel ≠ 0x3#4 := ne_of_le_toNat (by simp; omega)
  simp only [decodeFir, n0, n1, n2, n3, if_false, Nat.not_lt.2 h]

theorem decode_copy (sel : BitVec 4) (ign : BitVec 24) : decode (commandWord 0x0#4 sel ign) = .copy sel ign := by
  simp [decode]

theorem decode_cm (sel : BitVec 4) (ign : BitVec 24) : decode (commandWord 0x1#4 sel ign) = decodeCm sel ign := by
  simp [decode]

theorem decode_fir (sel : BitVec 4) (ign : BitVec 24) : decode (commandWord 0x2#4 sel ign) = decodeFir sel ign := by
  simp [decode]

theorem decode_blur (sel : BitVec 4) (ign : BitVec 24) : decode (commandWord 0x3#4 sel ign) = .blur sel ign := by
  simp [decode]

theorem decode_opLo {op : BitVec 4} (sel : BitVec 4) (ign : BitVec 24) (h : 4 ≤ op.toNat) (h' : op.toNat < 8) :
    decode (commandWord op sel ign) = .opRsvLo op sel ign := by
  have n0 : op ≠ 0x0#4 := ne_of_le_toNat (by simp; omega)
  have n1 : op ≠ 0x1#4 := ne_of_le_toNat (by simp; omega)
  have n2 : op ≠ 0x2#4 := ne_of_le_toNat (by simp; omega)
  have n3 : op ≠ 0x3#4 := ne_of_le_toNat (by simp; omega)
  simp only [decode, opField_commandWord, selField_commandWord, ignField_commandWord, n0, n1, n2, n3, h', if_true, if_false]

theorem decode_opHi {op : BitVec 4} (sel : BitVec 4) (ign : BitVec 24) (h : 8 ≤ op.toNat) :
    decode (commandWord op sel ign) = .opRsvHi op sel ign := by
  have n0 : op ≠ 0x0#4 := ne_of_le_toNat (by simp; omega)
  have n1 : op ≠ 0x1#4 := ne_of_le_toNat (by simp; omega)
  have n2 : op ≠ 0x2#4 := ne_of_le_toNat (by simp; omega)
  have n3 : op ≠ 0x3#4 := ne_of_le_toNat (by simp; omega)
  simp only [decode, opField_commandWord, selField_commandWord, ignField_commandWord, n0, n1, n2, n3, if_false,
    Nat.not_lt.2 h]

end Sys2Proof
end

