-- ==== Sys2Proof/Laws/Image.lean ====
section
/-! SUPPORT. Laws of images: reading a built image, equality of built images, the edge clamp. -/

namespace Sys2Proof.Machine

@[simp] theorem buildImage_width (w h : Nat) (f : Nat → Nat → Pixel) : (buildImage w h f).width = w := rfl
@[simp] theorem buildImage_height (w h : Nat) (f : Nat → Nat → Pixel) : (buildImage w h f).height = h := rfl

@[simp] theorem buildImage_length (w h : Nat) (f : Nat → Nat → Pixel) : (buildImage w h f).pixels.length = w * h := by
  simp [buildImage]

theorem pixelIndex_lt {w h x y : Nat} (hx : x < w) (hy : y < h) : y * w + x < w * h := by
  have : (y + 1) * w ≤ h * w := Nat.mul_le_mul_right w hy
  rw [Nat.mul_comm w h]
  have : (y + 1) * w = y * w + w := by ring
  omega

/-- Pixel number y * w + x of a built image is `f x y`. -/
theorem buildImage_getElem {w h x y : Nat} (f : Nat → Nat → Pixel) (hx : x < w)
    (hi : y * w + x < (buildImage w h f).pixels.length) : (buildImage w h f).pixels[y * w + x] = f x y := by
  have h1 : (y * w + x) % w = x := by rw [Nat.mul_comm, Nat.mul_add_mod]; exact Nat.mod_eq_of_lt hx
  have h2 : (y * w + x) / w = y := by
    rw [Nat.mul_comm, Nat.mul_add_div (by omega), Nat.div_eq_of_lt hx, Nat.add_zero]
  simp [buildImage, h1, h2]

theorem pixelAt_buildImage {w h x y : Nat} (f : Nat → Nat → Pixel) (hx : x < w) (hy : y < h) :
    pixelAt (buildImage w h f) x y = f x y := by
  have hi : y * w + x < (buildImage w h f).pixels.length := by rw [buildImage_length]; exact pixelIndex_lt hx hy
  simp only [pixelAt, buildImage_width]
  rw [List.getD_eq_getElem _ _ hi]
  exact buildImage_getElem f hx hi

/-- Two built images of one size are equal when their pixels are. -/
theorem buildImage_congr {w h : Nat} {f g : Nat → Nat → Pixel} (hfg : ∀ x y, x < w → y < h → f x y = g x y) :
    buildImage w h f = buildImage w h g := by
  simp only [buildImage, Image.mk.injEq, true_and]
  refine List.map_congr_left fun i hi => ?_
  have hi : i < w * h := List.mem_range.1 hi
  have hw : 0 < w := Nat.pos_of_ne_zero (by rintro rfl; simp at hi)
  exact hfg _ _ (Nat.mod_lt _ hw) ((Nat.div_lt_iff_lt_mul hw).2 (by rwa [Nat.mul_comm]))

/-- Mapping over a built image. -/
theorem mapPixels_buildImage (g : Pixel → Pixel) (w h : Nat) (f : Nat → Nat → Pixel) :
    mapPixels g (buildImage w h f) = buildImage w h fun x y => g (f x y) := by
  simp [mapPixels, buildImage]

/-- The identity copy of a built image is the image. -/
theorem copyImage_buildImage (w h : Nat) (f : Nat → Nat → Pixel) : copyImage (buildImage w h f) = buildImage w h f := by
  rw [copyImage, buildImage_width, buildImage_height]
  exact buildImage_congr fun x y hx hy => pixelAt_buildImage f hx hy

theorem clampCoord_lt {size : Nat} (h : 0 < size) (v : Int) : clampCoord size v < size := by
  simp only [clampCoord]; omega

theorem clampCoord_of_lt {size v : Nat} (h : v < size) : clampCoord size (v : Int) = v := by
  simp only [clampCoord]; omega

/-- The clamped neighbour of a built image (42_fir_convolver.md R171). -/
theorem clampedAt_buildImage {w h : Nat} (f : Nat → Nat → Pixel) (hw : 0 < w) (hh : 0 < h) (x y : Int) :
    clampedAt (buildImage w h f) x y = f (clampCoord w x) (clampCoord h y) :=
  pixelAt_buildImage f (clampCoord_lt hw x) (clampCoord_lt hh y)

end Sys2Proof.Machine
end

