-- ==== Sys2Proof/Laws/Memory.lean ====
section
/-! SUPPORT. Laws of the memory operations: read after write, frames, and the canonical form kept by every operation. -/

namespace Sys2Proof.Machine

theorem Memory.wfFrom_mono {lo lo' : Nat} (h : lo' ≤ lo) {m : Memory} (hm : Memory.wfFrom lo m = true) :
    Memory.wfFrom lo' m = true := by
  cases m with
  | nil => rfl
  | cons c m =>
    simp only [Memory.wfFrom, Bool.and_eq_true, decide_eq_true_eq] at hm ⊢
    exact ⟨⟨h.trans hm.1.1, hm.1.2⟩, hm.2⟩

/-- In a canonical memory whose keys start at `lo`, an address below `lo` is unlisted. -/
theorem Memory.read_of_lt {m : Memory} : ∀ {lo a : Nat}, Memory.wfFrom lo m = true → a < lo →
    m.read a = Config.unwrittenByte := by
  induction m with
  | nil => intros; rfl
  | cons c m ih =>
    intro lo a hm ha
    simp only [Memory.wfFrom, Bool.and_eq_true, decide_eq_true_eq] at hm
    simp only [Memory.read]
    rw [if_neg (by omega)]
    exact ih hm.2 (by omega)

theorem Memory.read_write_ne (m : Memory) {a a' : Nat} (v : Byte) (h : a' ≠ a) :
    (m.write a v).read a' = m.read a' := by
  induction m with
  | nil => simp only [Memory.write]; split <;> simp [Memory.read, h]
  | cons c m ih =>
    simp only [Memory.write]
    split
    · split <;> simp [Memory.read, h]
    · split
      · rename_i hac; subst hac; split <;> simp [Memory.read, h]
      · simp only [Memory.read]; rw [ih]

theorem Memory.read_write_same {m : Memory} : ∀ {lo : Nat} (a : Nat) (v : Byte), Memory.wfFrom lo m = true →
    (m.write a v).read a = v := by
  induction m with
  | nil => intro lo a v _; simp only [Memory.write]; split <;> simp_all [Memory.read]
  | cons c m ih =>
    intro lo a v hm
    simp only [Memory.wfFrom, Bool.and_eq_true, decide_eq_true_eq] at hm
    simp only [Memory.write]
    split
    · rename_i hac
      split
      · rename_i hv
        simp only [Memory.read, hv]
        rw [if_neg (by omega)]
        exact Memory.read_of_lt hm.2 (by omega)
      · simp [Memory.read]
    · split
      · rename_i hac
        split
        · rename_i hv
          rw [hv]
          exact Memory.read_of_lt hm.2 (by omega)
        · simp [Memory.read]
      · rename_i hne
        simp only [Memory.read]
        rw [if_neg hne]
        exact ih a v hm.2

theorem Memory.wfFrom_write {m : Memory} : ∀ {lo a : Nat} (v : Byte), Memory.wfFrom lo m = true → lo ≤ a →
    Memory.wfFrom lo (m.write a v) = true := by
  induction m with
  | nil => intro lo a v _ ha; simp only [Memory.write]; split <;> simp_all [Memory.wfFrom]
  | cons c m ih =>
    intro lo a v hm ha
    have hm' := hm
    simp only [Memory.wfFrom, Bool.and_eq_true, decide_eq_true_eq] at hm
    simp only [Memory.write]
    split
    · split
      · exact hm'
      · simp only [Memory.wfFrom, Bool.and_eq_true, decide_eq_true_eq]
        exact ⟨⟨ha, by assumption⟩, ⟨by omega, hm.1.2⟩, hm.2⟩
    · split
      · split
        · exact Memory.wfFrom_mono (by omega) hm.2
        · simp only [Memory.wfFrom, Bool.and_eq_true, decide_eq_true_eq]
          exact ⟨⟨ha, by assumption⟩, Memory.wfFrom_mono (by omega) hm.2⟩
      · simp only [Memory.wfFrom, Bool.and_eq_true, decide_eq_true_eq]
        exact ⟨hm.1, ih v hm.2 (by omega)⟩

/-- A write keeps the canonical form. -/
theorem Memory.wf_write {m : Memory} (a : Nat) (v : Byte) (hm : m.wf = true) : (m.write a v).wf = true :=
  Memory.wfFrom_write v hm (Nat.zero_le a)

theorem Memory.read_write {m : Memory} (hm : m.wf = true) (a a' : Nat) (v : Byte) :
    (m.write a v).read a' = if a' = a then v else m.read a' := by
  split
  · rename_i h; subst h; exact Memory.read_write_same _ v hm
  · rename_i h; exact Memory.read_write_ne m v h

theorem Memory.mem_write {m : Memory} {a : Nat} {v : Byte} {c : Host.Cell} (h : c ∈ m.write a v) :
    c = (a, v) ∨ c ∈ m := by
  induction m with
  | nil => simp only [Memory.write] at h; split at h <;> simp_all
  | cons d m ih =>
    simp only [Memory.write] at h
    split at h
    · split at h <;> simp_all
    · split at h
      · split at h
        · exact .inr (List.mem_cons_of_mem _ h)
        · rcases List.mem_cons.1 h with h | h
          · exact .inl h
          · exact .inr (List.mem_cons_of_mem _ h)
      · rcases List.mem_cons.1 h with h | h
        · exact .inr (h ▸ List.mem_cons_self)
        · exact (ih h).imp id (List.mem_cons_of_mem _)

/-! ### Lists of writes -/

theorem Memory.writeAll_cons (m : Memory) (c : Host.Cell) (cs : List Host.Cell) :
    m.writeAll (c :: cs) = Memory.writeAll (m.write c.1 c.2) cs := rfl

/-- A list of writes keeps the canonical form. -/
theorem Memory.wf_writeAll {cs : List Host.Cell} : ∀ {m : Memory}, m.wf = true → (m.writeAll cs).wf = true := by
  induction cs with
  | nil => intro m hm; exact hm
  | cons c cs ih => intro m hm; exact ih (Memory.wf_write _ _ hm)

theorem Memory.mem_writeAll {cs : List Host.Cell} : ∀ {m : Memory} {c : Host.Cell}, c ∈ m.writeAll cs → c ∈ cs ∨ c ∈ m := by
  induction cs with
  | nil => intro m c h; exact .inr h
  | cons d cs ih =>
    intro m c h
    rcases ih h with h | h
    · exact .inl (List.mem_cons_of_mem _ h)
    · rcases Memory.mem_write h with h | h
      · exact .inl (h ▸ List.mem_cons_self)
      · exact .inr h

/-- Addresses that are not written read as before. -/
theorem Memory.read_writeAll_of_notMem {cs : List Host.Cell} {a : Nat} : ∀ {m : Memory}, (∀ c ∈ cs, c.1 ≠ a) →
    (m.writeAll cs).read a = m.read a := by
  induction cs with
  | nil => intro m _; rfl
  | cons c cs ih =>
    intro m h
    rw [Memory.writeAll_cons, ih fun d hd => h d (List.mem_cons_of_mem _ hd)]
    exact Memory.read_write_ne m c.2 (h c List.mem_cons_self).symm

/-- Writing `f a` at every address of a list. -/
theorem Memory.read_writeAll_map {as : List Nat} (f : Nat → Byte) : ∀ {m : Memory}, m.wf = true → ∀ a,
    (m.writeAll (as.map fun a => (a, f a))).read a = if a ∈ as then f a else m.read a := by
  induction as with
  | nil => intro m _ a; simp [Memory.writeAll]
  | cons b as ih =>
    intro m hm a
    rw [List.map_cons, Memory.writeAll_cons, ih (Memory.wf_write _ _ hm), Memory.read_write hm]
    by_cases h : a = b <;> simp [h]

/-! ### 32-bit writes and pixels -/

/-- A 4-byte write keeps the canonical form. -/
theorem Memory.wf_write4 {m : Memory} (a : Nat) (v : Word) (hm : m.wf = true) : (m.write4 a v).wf = true :=
  Memory.wf_writeAll hm

theorem Memory.read_write4_of_outside (m : Memory) {a addr : Nat} (v : Word) (h : a < addr ∨ addr + 4 ≤ a) :
    (m.write4 addr v).read a = m.read a := by
  refine Memory.read_writeAll_of_notMem ?_
  intro c hc
  simp only [List.mem_cons, List.not_mem_nil, or_false] at hc
  rcases hc with rfl | rfl | rfl | rfl <;> dsimp only <;> omega

theorem Memory.read_write4_lane {m : Memory} (hm : m.wf = true) (addr : Nat) (v : Word) {k : Nat} (hk : k < 4) :
    (m.write4 addr v).read (addr + k) = v.extractLsb' (8 * k) 8 := by
  have h0 := Memory.wf_write addr (v.extractLsb' 0 8) hm
  have h1 := Memory.wf_write (addr + 1) (v.extractLsb' 8 8) h0
  have h2 := Memory.wf_write (addr + 2) (v.extractLsb' 16 8) h1
  simp only [Memory.write4, Memory.writeAll, List.foldl]
  rw [Memory.read_write h2, Memory.read_write h1, Memory.read_write h0, Memory.read_write hm]
  obtain rfl | rfl | rfl | rfl : k = 0 ∨ k = 1 ∨ k = 2 ∨ k = 3 := by omega
  all_goals simp

/-- Writing pixels keeps the canonical form. -/
theorem Memory.wf_writePixels {ps : List Pixel} : ∀ {m : Memory} {addr : Nat}, m.wf = true →
    (m.writePixels addr ps).wf = true := by
  induction ps with
  | nil => intro m addr hm; exact hm
  | cons p ps ih => intro m addr hm; exact ih (Memory.wf_write4 _ _ hm)

theorem Memory.read_writePixels_of_outside {ps : List Pixel} : ∀ {m : Memory} {addr a : Nat},
    (a < addr ∨ addr + 4 * ps.length ≤ a) → (m.writePixels addr ps).read a = m.read a := by
  induction ps with
  | nil => intros; rfl
  | cons p ps ih =>
    intro m addr a h
    rw [List.length_cons] at h
    rw [Memory.writePixels, ih (by omega), Memory.read_write4_of_outside _ _ (by omega)]

theorem Memory.mem_writePixels {ps : List Pixel} : ∀ {m : Memory} {addr : Nat} {c : Host.Cell},
    c ∈ m.writePixels addr ps → c ∈ m ∨ (addr ≤ c.1 ∧ c.1 < addr + 4 * ps.length) := by
  induction ps with
  | nil => intro m addr c h; exact .inl h
  | cons p ps ih =>
    intro m addr c h
    rw [List.length_cons]
    rcases ih h with h | h
    · rcases Memory.mem_writeAll h with h | h
      · right
        simp only [List.mem_cons, List.not_mem_nil, or_false] at h
        rcases h with rfl | rfl | rfl | rfl <;> dsimp only <;> omega
      · exact .inl h
    · right; omega

/-- Byte k of the i-th written pixel. -/
theorem Memory.read_writePixels {ps : List Pixel} : ∀ {m : Memory} {addr i k : Nat}, m.wf = true →
    (hi : i < ps.length) → k < 4 →
    (m.writePixels addr ps).read (addr + 4 * i + k) = (pixelWord ps[i]).extractLsb' (8 * k) 8 := by
  induction ps with
  | nil => intro m addr i k _ hi; simp at hi
  | cons p ps ih =>
    intro m addr i k hm hi hk
    rw [Memory.writePixels]
    cases i with
    | zero =>
      rw [Memory.read_writePixels_of_outside (by omega)]
      exact Memory.read_write4_lane hm addr _ hk
    | succ i =>
      have e : addr + 4 * (i + 1) + k = (addr + 4) + 4 * i + k := by omega
      rw [e, ih (Memory.wf_write4 _ _ hm) (by simpa using hi) hk]
      rfl

/-! ### Byte lanes -/

@[simp] theorem pixelOfWord_wordOfLanes (b0 b1 b2 b3 : Byte) :
    pixelOfWord (wordOfLanes b0 b1 b2 b3) = { r := b0, g := b1, b := b2, a := b3 } := by
  simp only [pixelOfWord, wordOfLanes, Pixel.mk.injEq]
  refine ⟨?_, ?_, ?_, ?_⟩ <;>
    · ext i hi
      rw [BitVec.getElem_extractLsb', ← BitVec.getLsbD_eq_getElem, BitVec.getLsbD_append, BitVec.getLsbD_append,
        BitVec.getLsbD_append]
      split_ifs <;> first | omega | (congr 1; omega)

@[simp] theorem pixelOfWord_pixelWord (p : Pixel) : pixelOfWord (pixelWord p) = p :=
  pixelOfWord_wordOfLanes p.r p.g p.b p.a

/-- The four bytes of a written pixel are its channels (20_memory.md R72). -/
theorem memPixel_writePixels {ps : List Pixel} {m : Memory} {addr i : Nat} (hm : m.wf = true) (hi : i < ps.length) :
    Safety.memPixel (m.writePixels addr ps) (addr + 4 * i) = ps[i] := by
  have h := pixelOfWord_pixelWord ps[i]
  simp only [pixelOfWord] at h
  have lane := fun {k : Nat} (hk : k < 4) => Memory.read_writePixels (addr := addr) hm hi hk
  have e0 : addr + 4 * i = addr + 4 * i + 0 := rfl
  simp only [Safety.memPixel]
  rw [e0, lane (by omega : 0 < 4)]
  simp only [Nat.add_zero]
  rw [lane (by omega : 1 < 4), lane (by omega : 2 < 4), lane (by omega : 3 < 4)]
  exact h

end Sys2Proof.Machine
end

