-- ==== Sys2Proof/Laws/State.lean ====
section
/-! SUPPORT. One lemma per field per named update of State, true by rfl, so that no later proof unfolds a record update. -/

namespace Sys2Proof.Machine

/-! ### raiseError -/

@[simp] theorem raiseError_ctrlIrqEn (e : ErrorCode) (s : State) : (raiseError e s).ctrlIrqEn = s.ctrlIrqEn := rfl
@[simp] theorem raiseError_busy (e : ErrorCode) (s : State) : (raiseError e s).busy = false := rfl
@[simp] theorem raiseError_done (e : ErrorCode) (s : State) : (raiseError e s).done = s.done := rfl
@[simp] theorem raiseError_err (e : ErrorCode) (s : State) : (raiseError e s).err = true := rfl
@[simp] theorem raiseError_ovr (e : ErrorCode) (s : State) : (raiseError e s).ovr = s.ovr := rfl
@[simp] theorem raiseError_errcode (e : ErrorCode) (s : State) : (raiseError e s).errcode = errorCode e := rfl
@[simp] theorem raiseError_lastCmd (e : ErrorCode) (s : State) : (raiseError e s).lastCmd = s.lastCmd := rfl
@[simp] theorem raiseError_srcBase (e : ErrorCode) (s : State) : (raiseError e s).srcBase = s.srcBase := rfl
@[simp] theorem raiseError_dstBase (e : ErrorCode) (s : State) : (raiseError e s).dstBase = s.dstBase := rfl
@[simp] theorem raiseError_width (e : ErrorCode) (s : State) : (raiseError e s).width = s.width := rfl
@[simp] theorem raiseError_height (e : ErrorCode) (s : State) : (raiseError e s).height = s.height := rfl
@[simp] theorem raiseError_srcLen (e : ErrorCode) (s : State) : (raiseError e s).srcLen = s.srcLen := rfl
@[simp] theorem raiseError_blurRadius (e : ErrorCode) (s : State) : (raiseError e s).blurRadius = s.blurRadius := rfl
@[simp] theorem raiseError_firNorm (e : ErrorCode) (s : State) : (raiseError e s).firNorm = s.firNorm := rfl
@[simp] theorem raiseError_cmCoef (e : ErrorCode) (s : State) : (raiseError e s).cmCoef = s.cmCoef := rfl
@[simp] theorem raiseError_firCoef (e : ErrorCode) (s : State) : (raiseError e s).firCoef = s.firCoef := rfl
@[simp] theorem raiseError_lat (e : ErrorCode) (s : State) : (raiseError e s).lat = none := rfl
@[simp] theorem raiseError_mem (e : ErrorCode) (s : State) : (raiseError e s).mem = s.mem := rfl
@[simp] theorem raiseError_platform (e : ErrorCode) (s : State) : (raiseError e s).platform = s.platform := rfl
@[simp] theorem raiseError_prog (e : ErrorCode) (s : State) : (raiseError e s).prog = s.prog := rfl
@[simp] theorem raiseError_sched (e : ErrorCode) (s : State) : (raiseError e s).sched = s.sched := rfl
@[simp] theorem raiseError_turn (e : ErrorCode) (s : State) : (raiseError e s).turn = s.turn := rfl
@[simp] theorem raiseError_rdata (e : ErrorCode) (s : State) : (raiseError e s).rdata = s.rdata := rfl
@[simp] theorem raiseError_unseen (e : ErrorCode) (s : State) : (raiseError e s).unseen = s.unseen := rfl
@[simp] theorem raiseError_draws (e : ErrorCode) (s : State) : (raiseError e s).draws = s.draws := rfl

/-! ### finishCommand -/

@[simp] theorem finishCommand_ctrlIrqEn (L : Latch) (out : Image) (s : State) : (finishCommand L out s).ctrlIrqEn = s.ctrlIrqEn := rfl
@[simp] theorem finishCommand_busy (L : Latch) (out : Image) (s : State) : (finishCommand L out s).busy = false := rfl
@[simp] theorem finishCommand_done (L : Latch) (out : Image) (s : State) : (finishCommand L out s).done = true := rfl
@[simp] theorem finishCommand_err (L : Latch) (out : Image) (s : State) : (finishCommand L out s).err = s.err := rfl
@[simp] theorem finishCommand_ovr (L : Latch) (out : Image) (s : State) : (finishCommand L out s).ovr = s.ovr := rfl
@[simp] theorem finishCommand_errcode (L : Latch) (out : Image) (s : State) : (finishCommand L out s).errcode = s.errcode := rfl
@[simp] theorem finishCommand_lastCmd (L : Latch) (out : Image) (s : State) : (finishCommand L out s).lastCmd = s.lastCmd := rfl
@[simp] theorem finishCommand_srcBase (L : Latch) (out : Image) (s : State) : (finishCommand L out s).srcBase = s.srcBase := rfl
@[simp] theorem finishCommand_dstBase (L : Latch) (out : Image) (s : State) : (finishCommand L out s).dstBase = s.dstBase := rfl
@[simp] theorem finishCommand_width (L : Latch) (out : Image) (s : State) : (finishCommand L out s).width = s.width := rfl
@[simp] theorem finishCommand_height (L : Latch) (out : Image) (s : State) : (finishCommand L out s).height = s.height := rfl
@[simp] theorem finishCommand_srcLen (L : Latch) (out : Image) (s : State) : (finishCommand L out s).srcLen = s.srcLen := rfl
@[simp] theorem finishCommand_blurRadius (L : Latch) (out : Image) (s : State) : (finishCommand L out s).blurRadius = s.blurRadius := rfl
@[simp] theorem finishCommand_firNorm (L : Latch) (out : Image) (s : State) : (finishCommand L out s).firNorm = s.firNorm := rfl
@[simp] theorem finishCommand_cmCoef (L : Latch) (out : Image) (s : State) : (finishCommand L out s).cmCoef = s.cmCoef := rfl
@[simp] theorem finishCommand_firCoef (L : Latch) (out : Image) (s : State) : (finishCommand L out s).firCoef = s.firCoef := rfl
@[simp] theorem finishCommand_lat (L : Latch) (out : Image) (s : State) : (finishCommand L out s).lat = none := rfl
@[simp] theorem finishCommand_mem (L : Latch) (out : Image) (s : State) : (finishCommand L out s).mem = s.mem.writePixels (latDst L) out.pixels := rfl
@[simp] theorem finishCommand_platform (L : Latch) (out : Image) (s : State) : (finishCommand L out s).platform = s.platform := rfl
@[simp] theorem finishCommand_prog (L : Latch) (out : Image) (s : State) : (finishCommand L out s).prog = s.prog := rfl
@[simp] theorem finishCommand_sched (L : Latch) (out : Image) (s : State) : (finishCommand L out s).sched = s.sched := rfl
@[simp] theorem finishCommand_turn (L : Latch) (out : Image) (s : State) : (finishCommand L out s).turn = s.turn := rfl
@[simp] theorem finishCommand_rdata (L : Latch) (out : Image) (s : State) : (finishCommand L out s).rdata = s.rdata := rfl
@[simp] theorem finishCommand_unseen (L : Latch) (out : Image) (s : State) : (finishCommand L out s).unseen = settleNotes s L := rfl
@[simp] theorem finishCommand_draws (L : Latch) (out : Image) (s : State) : (finishCommand L out s).draws = s.draws + 1 := rfl

/-! ### busErrorCommand -/

@[simp] theorem busErrorCommand_ctrlIrqEn (L : Latch) (s : State) : (busErrorCommand L s).ctrlIrqEn = s.ctrlIrqEn := rfl
@[simp] theorem busErrorCommand_busy (L : Latch) (s : State) : (busErrorCommand L s).busy = false := rfl
@[simp] theorem busErrorCommand_done (L : Latch) (s : State) : (busErrorCommand L s).done = s.done := rfl
@[simp] theorem busErrorCommand_err (L : Latch) (s : State) : (busErrorCommand L s).err = true := rfl
@[simp] theorem busErrorCommand_ovr (L : Latch) (s : State) : (busErrorCommand L s).ovr = s.ovr := rfl
@[simp] theorem busErrorCommand_errcode (L : Latch) (s : State) : (busErrorCommand L s).errcode = 4#4 := rfl
@[simp] theorem busErrorCommand_lastCmd (L : Latch) (s : State) : (busErrorCommand L s).lastCmd = s.lastCmd := rfl
@[simp] theorem busErrorCommand_srcBase (L : Latch) (s : State) : (busErrorCommand L s).srcBase = s.srcBase := rfl
@[simp] theorem busErrorCommand_dstBase (L : Latch) (s : State) : (busErrorCommand L s).dstBase = s.dstBase := rfl
@[simp] theorem busErrorCommand_width (L : Latch) (s : State) : (busErrorCommand L s).width = s.width := rfl
@[simp] theorem busErrorCommand_height (L : Latch) (s : State) : (busErrorCommand L s).height = s.height := rfl
@[simp] theorem busErrorCommand_srcLen (L : Latch) (s : State) : (busErrorCommand L s).srcLen = s.srcLen := rfl
@[simp] theorem busErrorCommand_blurRadius (L : Latch) (s : State) : (busErrorCommand L s).blurRadius = s.blurRadius := rfl
@[simp] theorem busErrorCommand_firNorm (L : Latch) (s : State) : (busErrorCommand L s).firNorm = s.firNorm := rfl
@[simp] theorem busErrorCommand_cmCoef (L : Latch) (s : State) : (busErrorCommand L s).cmCoef = s.cmCoef := rfl
@[simp] theorem busErrorCommand_firCoef (L : Latch) (s : State) : (busErrorCommand L s).firCoef = s.firCoef := rfl
@[simp] theorem busErrorCommand_lat (L : Latch) (s : State) : (busErrorCommand L s).lat = none := rfl
@[simp] theorem busErrorCommand_mem (L : Latch) (s : State) : (busErrorCommand L s).mem = scrambleOutput s L := rfl
@[simp] theorem busErrorCommand_platform (L : Latch) (s : State) : (busErrorCommand L s).platform = s.platform := rfl
@[simp] theorem busErrorCommand_prog (L : Latch) (s : State) : (busErrorCommand L s).prog = s.prog := rfl
@[simp] theorem busErrorCommand_sched (L : Latch) (s : State) : (busErrorCommand L s).sched = s.sched := rfl
@[simp] theorem busErrorCommand_turn (L : Latch) (s : State) : (busErrorCommand L s).turn = s.turn := rfl
@[simp] theorem busErrorCommand_rdata (L : Latch) (s : State) : (busErrorCommand L s).rdata = s.rdata := rfl
@[simp] theorem busErrorCommand_unseen (L : Latch) (s : State) : (busErrorCommand L s).unseen = settleNotes s L := rfl
@[simp] theorem busErrorCommand_draws (L : Latch) (s : State) : (busErrorCommand L s).draws = s.draws + 1 := rfl

/-! ### resetUnit -/

@[simp] theorem resetUnit_ctrlIrqEn (s : State) : (resetUnit s).ctrlIrqEn = State.reset.ctrlIrqEn := rfl
@[simp] theorem resetUnit_busy (s : State) : (resetUnit s).busy = State.reset.busy := rfl
@[simp] theorem resetUnit_done (s : State) : (resetUnit s).done = State.reset.done := rfl
@[simp] theorem resetUnit_err (s : State) : (resetUnit s).err = State.reset.err := rfl
@[simp] theorem resetUnit_ovr (s : State) : (resetUnit s).ovr = State.reset.ovr := rfl
@[simp] theorem resetUnit_errcode (s : State) : (resetUnit s).errcode = State.reset.errcode := rfl
@[simp] theorem resetUnit_lastCmd (s : State) : (resetUnit s).lastCmd = State.reset.lastCmd := rfl
@[simp] theorem resetUnit_srcBase (s : State) : (resetUnit s).srcBase = State.reset.srcBase := rfl
@[simp] theorem resetUnit_dstBase (s : State) : (resetUnit s).dstBase = State.reset.dstBase := rfl
@[simp] theorem resetUnit_width (s : State) : (resetUnit s).width = State.reset.width := rfl
@[simp] theorem resetUnit_height (s : State) : (resetUnit s).height = State.reset.height := rfl
@[simp] theorem resetUnit_srcLen (s : State) : (resetUnit s).srcLen = State.reset.srcLen := rfl
@[simp] theorem resetUnit_blurRadius (s : State) : (resetUnit s).blurRadius = State.reset.blurRadius := rfl
@[simp] theorem resetUnit_firNorm (s : State) : (resetUnit s).firNorm = State.reset.firNorm := rfl
@[simp] theorem resetUnit_cmCoef (s : State) : (resetUnit s).cmCoef = State.reset.cmCoef := rfl
@[simp] theorem resetUnit_firCoef (s : State) : (resetUnit s).firCoef = State.reset.firCoef := rfl
@[simp] theorem resetUnit_lat (s : State) : (resetUnit s).lat = State.reset.lat := rfl
@[simp] theorem resetUnit_mem (s : State) : (resetUnit s).mem = abandonedMemory s := rfl
@[simp] theorem resetUnit_platform (s : State) : (resetUnit s).platform = s.platform := rfl
@[simp] theorem resetUnit_prog (s : State) : (resetUnit s).prog = s.prog := rfl
@[simp] theorem resetUnit_sched (s : State) : (resetUnit s).sched = s.sched := rfl
@[simp] theorem resetUnit_turn (s : State) : (resetUnit s).turn = s.turn := rfl
@[simp] theorem resetUnit_rdata (s : State) : (resetUnit s).rdata = s.rdata := rfl
@[simp] theorem resetUnit_unseen (s : State) : (resetUnit s).unseen = abandonedNotes s := rfl
@[simp] theorem resetUnit_draws (s : State) : (resetUnit s).draws = s.draws + 1 := rfl

/-! ### writeStatus -/

@[simp] theorem writeStatus_ctrlIrqEn (v : Word) (s : State) : (writeStatus v s).ctrlIrqEn = s.ctrlIrqEn := rfl
@[simp] theorem writeStatus_busy (v : Word) (s : State) : (writeStatus v s).busy = s.busy := rfl
@[simp] theorem writeStatus_done (v : Word) (s : State) : (writeStatus v s).done = (s.done && !v.getLsbD 1) := rfl
@[simp] theorem writeStatus_err (v : Word) (s : State) : (writeStatus v s).err = (s.err && !v.getLsbD 2) := rfl
@[simp] theorem writeStatus_ovr (v : Word) (s : State) : (writeStatus v s).ovr = (s.ovr && !v.getLsbD 3) := rfl
@[simp] theorem writeStatus_errcode (v : Word) (s : State) : (writeStatus v s).errcode = (if v.getLsbD 2 then 0#4 else s.errcode) := rfl
@[simp] theorem writeStatus_lastCmd (v : Word) (s : State) : (writeStatus v s).lastCmd = s.lastCmd := rfl
@[simp] theorem writeStatus_srcBase (v : Word) (s : State) : (writeStatus v s).srcBase = s.srcBase := rfl
@[simp] theorem writeStatus_dstBase (v : Word) (s : State) : (writeStatus v s).dstBase = s.dstBase := rfl
@[simp] theorem writeStatus_width (v : Word) (s : State) : (writeStatus v s).width = s.width := rfl
@[simp] theorem writeStatus_height (v : Word) (s : State) : (writeStatus v s).height = s.height := rfl
@[simp] theorem writeStatus_srcLen (v : Word) (s : State) : (writeStatus v s).srcLen = s.srcLen := rfl
@[simp] theorem writeStatus_blurRadius (v : Word) (s : State) : (writeStatus v s).blurRadius = s.blurRadius := rfl
@[simp] theorem writeStatus_firNorm (v : Word) (s : State) : (writeStatus v s).firNorm = s.firNorm := rfl
@[simp] theorem writeStatus_cmCoef (v : Word) (s : State) : (writeStatus v s).cmCoef = s.cmCoef := rfl
@[simp] theorem writeStatus_firCoef (v : Word) (s : State) : (writeStatus v s).firCoef = s.firCoef := rfl
@[simp] theorem writeStatus_lat (v : Word) (s : State) : (writeStatus v s).lat = s.lat := rfl
@[simp] theorem writeStatus_mem (v : Word) (s : State) : (writeStatus v s).mem = s.mem := rfl
@[simp] theorem writeStatus_platform (v : Word) (s : State) : (writeStatus v s).platform = s.platform := rfl
@[simp] theorem writeStatus_prog (v : Word) (s : State) : (writeStatus v s).prog = s.prog := rfl
@[simp] theorem writeStatus_sched (v : Word) (s : State) : (writeStatus v s).sched = s.sched := rfl
@[simp] theorem writeStatus_turn (v : Word) (s : State) : (writeStatus v s).turn = s.turn := rfl
@[simp] theorem writeStatus_rdata (v : Word) (s : State) : (writeStatus v s).rdata = s.rdata := rfl
@[simp] theorem writeStatus_unseen (v : Word) (s : State) : (writeStatus v s).unseen = s.unseen := rfl
@[simp] theorem writeStatus_draws (v : Word) (s : State) : (writeStatus v s).draws = s.draws := rfl

/-! ### takeLatch -/

@[simp] theorem takeLatch_cmd (w : Word) (s : State) : (takeLatch w s).cmd = w := rfl
@[simp] theorem takeLatch_srcBase (w : Word) (s : State) : (takeLatch w s).srcBase = s.srcBase := rfl
@[simp] theorem takeLatch_dstBase (w : Word) (s : State) : (takeLatch w s).dstBase = s.dstBase := rfl
@[simp] theorem takeLatch_width (w : Word) (s : State) : (takeLatch w s).width = s.width := rfl
@[simp] theorem takeLatch_height (w : Word) (s : State) : (takeLatch w s).height = s.height := rfl
@[simp] theorem takeLatch_srcLen (w : Word) (s : State) : (takeLatch w s).srcLen = s.srcLen := rfl
@[simp] theorem takeLatch_blurRadius (w : Word) (s : State) : (takeLatch w s).blurRadius = s.blurRadius := rfl
@[simp] theorem takeLatch_firNorm (w : Word) (s : State) : (takeLatch w s).firNorm = s.firNorm := rfl
@[simp] theorem takeLatch_cmCoef (w : Word) (s : State) : (takeLatch w s).cmCoef = s.cmCoef := rfl
@[simp] theorem takeLatch_firCoef (w : Word) (s : State) : (takeLatch w s).firCoef = s.firCoef := rfl
@[simp] theorem takeLatch_unseen (w : Word) (s : State) : (takeLatch w s).unseen = s.unseen := rfl

end Sys2Proof.Machine
end

