-- ==== Sys2Proof/Laws/Command.lean ====
section
/-! SUPPORT. Spec lemmas of the shared operations of a command: the checks, the input image, the completion, and what any
command's `exec` is. -/

namespace Sys2Proof.Machine

open Sys2Proof.Safety

theorem baseAddr_eq (b : BitVec 30) : baseAddr b = 4 * b.toNat := by
  simp only [baseAddr, BitVec.toNat_append]
  rw [Nat.shiftLeft_eq]
  simp [Nat.mul_comm]

/-- The checks pass exactly when (40_command.md R132). -/
theorem checkLatch_eq_none {L : Latch} : checkLatch L = none ↔
    latW L ≠ 0 ∧ latH L ≠ 0 ∧ latW L * latH L = L.srcLen.toNat ∧
    latSrc L + latN4 L ≤ 2 ^ 32 ∧ latDst L + latN4 L ≤ 2 ^ 32 ∧
    (latDst L + latN4 L ≤ latSrc L ∨ latSrc L + latN4 L ≤ latDst L) := by
  unfold checkLatch
  split_ifs <;> constructor <;> intro h <;> first | contradiction | (exfalso; omega) | (refine ⟨?_, ?_, ?_, ?_, ?_, ?_⟩ <;> omega) | rfl

theorem mem_byteRange {b n a : Nat} : a ∈ byteRange b n ↔ b ≤ a ∧ a < b + n := by
  simp only [byteRange, List.mem_map, List.mem_range]
  constructor
  · rintro ⟨k, hk, rfl⟩; omega
  · rintro ⟨h1, h2⟩; exact ⟨a - b, by omega, by omega⟩

@[simp] theorem inInput_iff {L : Latch} {a : Nat} : inInput L a = true ↔ latSrc L ≤ a ∧ a < latSrc L + latN4 L := by
  simp [inInput]

@[simp] theorem inOutput_iff {L : Latch} {a : Nat} : inOutput L a = true ↔ latDst L ≤ a ∧ a < latDst L + latN4 L := by
  simp [inOutput]

theorem mem_ranges {L : Latch} {a : Nat} :
    a ∈ byteRange (latSrc L) (latN4 L) ++ byteRange (latDst L) (latN4 L) ↔ inInput L a = true ∨ inOutput L a = true := by
  rw [List.mem_append, mem_byteRange, mem_byteRange, inInput_iff, inOutput_iff]

/-- Every byte of both ranges is admitted (40_command.md R134). -/
theorem allAdmitted_iff {s : State} {L : Latch} : allAdmitted s L = true ↔
    ∀ a, (inInput L a = true ∨ inOutput L a = true) → memOk s.platform a = true := by
  simp only [allAdmitted, List.all_eq_true, mem_ranges]

/-- Some admitted byte of a range has side effects. -/
theorem touchesDevice_iff {s : State} {L : Latch} : touchesDevice s L = true ↔
    ∃ a, (inInput L a = true ∨ inOutput L a = true) ∧ memOk s.platform a = true ∧ isDevice s.platform a = true := by
  simp only [touchesDevice, List.any_eq_true, mem_ranges, Bool.and_eq_true]

/-! ### The input image -/

/-- A pixel address lies in the range of its buffer (20_memory.md R71). -/
theorem pixAddr_range {b w h x y k : Nat} (hx : x < w) (hy : y < h) (hk : k < 4) :
    b ≤ pixAddr b w x y + k ∧ pixAddr b w x y + k < b + 4 * (w * h) := by
  have := pixelIndex_lt hx hy
  simp only [pixAddr]; omega

/-- The input image, pixel by pixel (40_command.md R134). -/
theorem inputImage_eq (s : State) (L : Latch) : inputImage s L = buildImage (latW L) (latH L) (inPixel s L) := by
  simp only [inputImage, unitRead4, pixelOfWord_wordOfLanes]
  rfl

@[simp] theorem inputImage_width (s : State) (L : Latch) : (inputImage s L).width = latW L := rfl
@[simp] theorem inputImage_height (s : State) (L : Latch) : (inputImage s L).height = latH L := rfl

/-- What a command reads at an address: the memory's byte or an older one that its latch notes there (93 U23). -/
theorem unitByte_cases (s : State) (L : Latch) (a : Nat) :
    unitByte s L a = s.mem.read a ∨ ∃ n ∈ L.unseen, n.addr = a ∧ unitByte s L a = n.older := by
  unfold unitByte
  generalize ho : (L.unseen.filter fun n => n.addr == a).map StoreNote.older = olds
  cases olds with
  | nil => exact .inl rfl
  | cons b bs =>
    have hlen : Config.freePick s.draws a % ((b :: bs).length + 1) < (s.mem.read a :: b :: bs).length :=
      Nat.mod_lt _ (Nat.succ_pos _)
    simp only [List.getD_eq_getElem _ _ hlen]
    rcases List.mem_cons.1 (List.getElem_mem hlen) with e | e
    · exact .inl e
    · right
      generalize (s.mem.read a :: b :: bs)[Config.freePick s.draws a % ((b :: bs).length + 1)] = v at e ⊢
      rw [← ho] at e
      obtain ⟨n, hn, e⟩ := List.mem_map.1 e
      obtain ⟨hn, hn'⟩ := List.mem_filter.1 hn
      exact ⟨n, hn, eq_of_beq hn', e.symm⟩

/-- A command accepted with every store visible reads the memory (20_memory.md R82 (a)). -/
theorem unitByte_of_unseen_nil {L : Latch} (h : L.unseen = []) (s : State) (a : Nat) : unitByte s L a = s.mem.read a := by
  rcases unitByte_cases s L a with e | ⟨n, hn, -⟩
  · exact e
  · rw [h] at hn; cases hn

/-- With no note there is none to settle. -/
theorem settleNotes_nil {s : State} (L : Latch) (h : s.unseen = []) : settleNotes s L = [] := by
  rw [settleNotes, h]; rfl

/-- A settled note: in the written range its older byte is the stored one, elsewhere it is the old note (log 9). -/
theorem mem_settleNotes {s : State} {L : Latch} {n : StoreNote} (h : n ∈ settleNotes s L) :
    (inOutput L n.addr = true → memOk s.platform n.addr = true → n.older = n.stored) ∧
    (inOutput L n.addr = false ∨ memOk s.platform n.addr = false → n ∈ s.unseen) := by
  obtain ⟨m, hm, rfl⟩ := List.mem_map.1 h
  cases ho : inOutput L m.addr <;> cases hk : memOk s.platform m.addr <;> simp [ho, hk, hm]

/-! ### Completion -/

/-- A command that is ready completes with its engine's output (40_command.md R134). -/
theorem completeCommand_ready {s : State} {L : Latch} (F : Latch → Image → Image) (h : ReadyToComplete s L) :
    completeCommand F s = .next (finishCommand L (F L (inputImage s L)) s) := by
  obtain ⟨-, hb, hl, ha, hd⟩ := h
  simp only [completeCommand, hb, hl, ha, hd, if_true, Bool.false_eq_true, if_false]

/-- Everything a completion can do. -/
theorem completeCommand_cases {F : Latch → Image → Image} {s t : State} (h : completeCommand F s = .next t) :
    (∃ L, s.busy = true ∧ s.lat = some L ∧ touchesDevice s L = false ∧
      (allAdmitted s L = true ∧ t = finishCommand L (F L (inputImage s L)) s ∨
       allAdmitted s L = false ∧ t = busErrorCommand L s)) ∨
    (t = s ∧ (s.busy = false ∨ s.lat = none)) := by
  unfold completeCommand at h
  split at h
  · rename_i L hb hl
    split at h
    · cases h
    · rename_i hd
      refine .inl ⟨L, hb, hl, by simpa using hd, ?_⟩
      split at h
      · rename_i ha; cases h; exact .inl ⟨ha, rfl⟩
      · rename_i ha; cases h; exact .inr ⟨by simpa using ha, rfl⟩
  · rename_i hl; cases h; exact .inr ⟨rfl, .inr hl⟩
  · rename_i hb; cases h; exact .inr ⟨rfl, .inl hb⟩

/-- Finishing with a built image leaves what `CompletedWith` says (20_memory.md R89). -/
theorem completedWith_finish {s : State} {L : Latch} {f : Nat → Nat → Pixel} (hm : s.mem.wf = true) :
    CompletedWith s (finishCommand L (buildImage (latW L) (latH L) f) s) L f := by
  refine ⟨rfl, ?_, ?_⟩
  · intro x y hx hy
    have hi : y * latW L + x < (buildImage (latW L) (latH L) f).pixels.length := by
      rw [buildImage_length]; exact pixelIndex_lt hx hy
    exact (memPixel_writePixels hm hi).trans (buildImage_getElem f hx hi)
  · intro a ha
    refine Memory.read_writePixels_of_outside ?_
    rw [buildImage_length]
    have : ¬ (latDst L ≤ a ∧ a < latDst L + latN4 L) := fun h => by rw [inOutput_iff.2 h] at ha; cases ha
    simp only [latN4] at this
    omega

/-! ### Any command -/

/-- What `exec` of any command is: `runCommand` of its word and of an engine that gives an image of the input's size
(40_command.md R135). -/
theorem exec_eq_runCommand (i : Instr) : ∃ F : Latch → Image → Image, (∀ s, exec i s = runCommand (encode i) F s) ∧
    ∀ L w h f, (F L (buildImage w h f)).pixels.length = w * h := by
  cases i with
  | copy _ _ | cmRsvLo _ _ | cmRsvHi _ _ | firRsvLo _ _ | firRsvHi _ _ | opRsvLo _ _ _ | opRsvHi _ _ _ =>
    exact ⟨_, fun s => rfl, fun L w h f => by rw [copyImage_buildImage, buildImage_length]⟩
  | cmId _ | cmGray _ | cmBin _ | cmUser _ =>
    exact ⟨_, fun s => rfl, fun L w h f => by rw [mapPixels_buildImage, buildImage_length]⟩
  | firId _ | firBlur _ | firEdge _ | firUser _ =>
    exact ⟨_, fun s => rfl, fun L w h f => by rw [firImage, buildImage_length]; rfl⟩
  | blur _ _ =>
    refine ⟨_, fun s => rfl, fun L w h f => ?_⟩
    simp only [blurImage]
    split
    · rw [copyImage_buildImage, buildImage_length]
    · rw [buildImage_length]; rfl

/-- On the host's turn `exec` is the CMD write of the command's word (40_command.md R130, R133). -/
theorem exec_host {i : Instr} {s : State} (h : s.turn = .host) : exec i s = issueCommand (encode i) s := by
  obtain ⟨F, hF, -⟩ := exec_eq_runCommand i
  rw [hF, runCommand, h]

/-- Everything a CMD write can do: dropped, accepted, refused, or stopped by a buffer on memory with side effects
(40_command.md R130, R132, R133, 20_memory.md R78). A next state differs in STATUS, CMD's read-back and the latch only
(60_exceptions.md R219). -/
theorem issueCommand_cases (w : Word) (s : State) :
    (s.busy = true ∧ issueCommand w s = .next { s with ovr := true }) ∨
    (s.busy = false ∧ checkLatch (takeLatch w s) = none ∧ touchesDevice s (takeLatch w s) = false ∧ issueCommand w s = .next
      { s with lastCmd := w, done := false, err := false, errcode := 0#4, busy := true, lat := some (takeLatch w s) }) ∨
    (s.busy = false ∧ ∃ e, checkLatch (takeLatch w s) = some e ∧ e ≠ .busError ∧ issueCommand w s = .next
      { s with lastCmd := w, done := false, err := true, errcode := errorCode e, busy := false, lat := none }) ∨
    (s.busy = false ∧ checkLatch (takeLatch w s) = none ∧ touchesDevice s (takeLatch w s) = true ∧
      issueCommand w s = .fault .sideEffectBuffer) := by
  unfold issueCommand
  split
  · rename_i hb; exact .inl ⟨hb, rfl⟩
  · rename_i hb
    have hb : s.busy = false := by simpa using hb
    right
    unfold acceptCommand
    cases hc : checkLatch (takeLatch w s) with
    | none =>
      cases hd : touchesDevice s (takeLatch w s) with
      | false => exact .inl ⟨hb, rfl, rfl, rfl⟩
      | true => exact .inr (.inr ⟨hb, rfl, rfl, rfl⟩)
    | some e =>
      refine .inr (.inl ⟨hb, e, rfl, ?_, rfl⟩)
      rintro rfl
      revert hc
      unfold checkLatch
      split_ifs <;> simp

/-- A command that is ready, whose engine gives the image `f`, completes with `f` (40_command.md R134). -/
theorem runCommand_built {w : Word} {F : Latch → Image → Image} {s : State} {L : Latch} {f : Nat → Nat → Pixel}
    (h : ReadyToComplete s L) (hm : s.mem.wf = true)
    (hF : F L (buildImage (latW L) (latH L) (inPixel s L)) = buildImage (latW L) (latH L) f) :
    ∃ t, runCommand w F s = .next t ∧ CompletedWith s t L f := by
  refine ⟨finishCommand L (buildImage (latW L) (latH L) f) s, ?_, completedWith_finish hm⟩
  rw [runCommand, h.1]
  simp only
  rw [completeCommand_ready F h, inputImage_eq, hF]

/-- Everything a command can do on the unit's turn while BUSY = 1 (40_command.md R134). -/
theorem exec_unit_cases {i : Instr} {s t : State} {L : Latch} (ht : s.turn = .unit) (hb : s.busy = true)
    (hl : s.lat = some L) (h : exec i s = .next t) :
    touchesDevice s L = false ∧
      ((allAdmitted s L = true ∧ ∃ out : Image, t = finishCommand L out s ∧ out.pixels.length = latW L * latH L) ∨
       (allAdmitted s L = false ∧ t = busErrorCommand L s)) := by
  obtain ⟨F, hF, hlen⟩ := exec_eq_runCommand i
  rw [hF, runCommand, ht] at h
  rcases completeCommand_cases h with ⟨L', hb', hl', hd, h⟩ | ⟨-, h | h⟩
  · rw [hl] at hl'; cases hl'
    refine ⟨hd, ?_⟩
    rcases h with ⟨ha, h⟩ | ⟨ha, h⟩
    · exact .inl ⟨ha, _, h, by rw [inputImage_eq]; exact hlen _ _ _ _⟩
    · exact .inr ⟨ha, h⟩
  · rw [hb] at h; cases h
  · rw [hl] at h; cases h

/-! ### Abandoned output bytes -/

/-- A scrambled output range keeps the canonical form. -/
theorem wf_scrambleOutput {s : State} (L : Latch) (hm : s.mem.wf = true) : (scrambleOutput s L).wf = true :=
  Memory.wf_writeAll hm

/-- A scrambled output range: the draw's byte at every admitted address of the range, the old byte elsewhere (log 8). -/
theorem read_scrambleOutput {s : State} (L : Latch) (hm : s.mem.wf = true) (a : Nat) : (scrambleOutput s L).read a =
    if inOutput L a = true ∧ memOk s.platform a = true then Config.freeByte s.draws a else s.mem.read a := by
  rw [scrambleOutput, Memory.read_writeAll_map _ hm]
  simp only [List.mem_filter, mem_byteRange, inOutput_iff]

/-- A reset keeps the canonical form. -/
theorem wf_abandonedMemory {s : State} (hm : s.mem.wf = true) : (abandonedMemory s).wf = true := by
  unfold abandonedMemory
  split
  · exact wf_scrambleOutput _ hm
  · exact hm
  · exact hm

end Sys2Proof.Machine
end

