-- ==== Sys2Proof/Laws/Agents.lean ====
section
/-! SUPPORT. What the agents can do, said once: the register a host access reaches, the host's statements, and one step. -/

namespace Sys2Proof.Machine

open Sys2Proof.Safety

/-! ### The register map -/

theorem regAt_offset (r : Reg) : regAt (regOffset r) = r := by
  cases r with
  | cmCoef j => exact (by decide : ∀ j : Fin 20, regAt (regOffset (.cmCoef j)) = .cmCoef j) j
  | firCoef j => exact (by decide : ∀ j : Fin 9, regAt (regOffset (.firCoef j)) = .firCoef j) j
  | _ => rfl

theorem regOffset_aligned (r : Reg) : regOffset r % 4 = 0 := by
  cases r <;> simp only [regOffset] <;> omega

theorem regOffset_lt (r : Reg) : regOffset r < Config.windowSize := by
  cases r <;> simp only [regOffset, Config.windowSize] <;> omega

/-- The registers whose writes act sit at one offset each. -/
theorem eq_offset_of_regAt {off : Nat} {r : Reg} (h : regAt off = r) (hr : r = .cmd ∨ r = .status ∨ r = .ctrl) :
    off = regOffset r := by
  unfold regAt at h
  split at h
  all_goals first
    | (subst h; rfl)
    | (split at h; (subst h; simp at hr); split at h <;> (subst h; simp at hr))

theorem windowOffset_add (p : Platform) {off : Nat} (h : off < Config.windowSize) :
    windowOffset p (p.cmuBase + off) = some off := by
  unfold windowOffset
  rw [if_pos ⟨by omega, by omega⟩]
  simp

/-- A register's own address reaches it. -/
theorem accessedReg_own (p : Platform) (r : Reg) : accessedReg p (p.cmuBase + regOffset r) .word = .ok r := by
  simp only [accessedReg, windowOffset_add p (regOffset_lt r), regOffset_aligned r, regAt_offset, and_self, if_true]

theorem accessedReg_ok {p : Platform} {addr : Nat} {size : AccessSize} {r : Reg} (h : accessedReg p addr size = .ok r) :
    ∃ off, addr = p.cmuBase + off ∧ size = .word ∧ regAt off = r := by
  unfold accessedReg at h
  split at h
  · cases h
  · rename_i off ho
    split at h
    · rename_i hs
      cases h
      unfold windowOffset at ho
      split at ho
      · cases ho; exact ⟨_, by omega, hs.1, rfl⟩
      · cases ho
    · cases h

/-! ### Host statements -/

/-- The registers and the running command are the same in both states: only host-side fields differ. -/
def SameUnit (s t : State) : Prop :=
  t = { s with mem := t.mem, prog := t.prog, sched := t.sched, turn := t.turn, rdata := t.rdata, unseen := t.unseen,
               draws := t.draws }

/-- Everything a host statement can do: issue a command, write another register, read, store, or fence. -/
theorem hostStatement_cases {run : Word → State → Outcome} {op : HostOp} {s t : State}
    (h : hostStatement run op s = .next t) :
    (∃ w, op = asmWr s.platform .cmd w ∧ run w s = .next t) ∨
    (∃ r v off, op = .regWrite (s.platform.cmuBase + off) .word v ∧ regAt off = r ∧ r ≠ .cmd ∧ t = writeReg r v s) ∨
    (SameUnit s t ∧ t.mem = s.mem ∧ t.unseen = s.unseen) ∨
    (∃ addr size data, op = .memWrite addr size data ∧ addr.toNat + sizeBytes size ≤ 2 ^ 32 ∧
      (∀ a ∈ accessBytes addr size, busyBuffer s a = false) ∧
      t = { s with mem := s.mem.writeAll (storedCells addr size data),
                   unseen := storeNotes (storedCells addr size data) s ++ s.unseen }) ∨
    (op = .fence ∧ t = { s with unseen := [] }) := by
  cases op with
  | regWrite addr size data =>
    simp only [hostStatement, hostRegWrite] at h
    split at h
    · cases h
    · rename_i hr
      obtain ⟨off, rfl, rfl, ho⟩ := accessedReg_ok hr
      have := eq_offset_of_regAt ho (.inl rfl)
      exact .inl ⟨data, by rw [this]; rfl, h⟩
    · rename_i r hne hr
      obtain ⟨off, rfl, rfl, ho⟩ := accessedReg_ok hr
      cases h
      exact .inr (.inl ⟨r, data, off, rfl, ho, hne, rfl⟩)
  | regRead addr size =>
    simp only [hostStatement, hostRegRead] at h
    split at h
    · cases h
    · cases h; exact .inr (.inr (.inl ⟨rfl, rfl, rfl⟩))
  | poll addr mask val =>
    simp only [hostStatement, hostPoll] at h
    split at h
    · cases h
    · split at h <;> cases h <;> exact .inr (.inr (.inl ⟨rfl, rfl, rfl⟩))
  | memWrite addr size data =>
    simp only [hostStatement, hostMemWrite] at h
    split at h
    · cases h
    · split at h
      · cases h
      · split at h
        · cases h
        · rename_i h1 h2 h3
          cases h
          refine .inr (.inr (.inr (.inl ⟨addr, size, data, rfl, by simpa [Config.addrSpace] using h1, ?_, rfl⟩)))
          simpa using h3
  | memRead addr size =>
    simp only [hostStatement, hostMemRead] at h
    split at h
    · cases h
    · split at h
      · cases h
      · cases h; exact .inr (.inr (.inl ⟨rfl, rfl, rfl⟩))
  | fence =>
    simp only [hostStatement, hostFence] at h
    split at h
    · cases h
    · cases h; exact .inr (.inr (.inr (.inr ⟨rfl, rfl⟩)))

/-! ### Steps -/

/-- The event the next step takes: what `sched` names, else the unit when it is busy, else the host (log 2). -/
def nextEvent (s : State) : Event :=
  match s.sched with
  | e :: _ => e
  | [] => if s.busy then .unitMove else .hostMove

theorem agentStep_eq (run : Word → State → Outcome) (s : State) : agentStep run s =
    match nextEvent s with
    | .hostMove => hostMove run { s with sched := s.sched.tail }
    | .unitMove => unitMove run { s with sched := s.sched.tail }
    | .resetInput => .next (resetUnit { s with sched := s.sched.tail }) := by
  unfold agentStep nextEvent
  cases hs : s.sched with
  | nil =>
    have e : { s with sched := ([] : List Event).tail } = s := by
      cases s; simp only [State.mk.injEq] at hs ⊢; simp_all
    simp only [e]
    cases s.busy <;> rfl
  | cons e rest => cases e <;> rfl

/-- The step when the host moves and has a statement. -/
theorem step_host {s : State} {op : HostOp} {ops : List HostOp} (he : nextEvent s = .hostMove) (hp : s.prog = op :: ops) :
    step s = hostStatement (fun w s => exec (decode w) s) op { s with sched := s.sched.tail, turn := .host, prog := ops } := by
  rw [step, agentStep_eq, he]
  simp only [hostMove, hp]

/-- The step when the unit moves while a command runs. -/
theorem step_unit {s : State} {L : Latch} (he : nextEvent s = .unitMove) (hb : s.busy = true) (hl : s.lat = some L) :
    step s = exec (decode L.cmd) { s with sched := s.sched.tail, turn := .unit } := by
  rw [step, agentStep_eq, he]
  simp only [unitMove, hb, hl]

theorem nextEvent_hostDoes (s : State) (op : HostOp) : nextEvent (hostDoes s op) = .hostMove := rfl

/-- The step of `hostDoes`: the statement runs on `s` with the host's turn. -/
theorem step_hostDoes (s : State) (op : HostOp) : step (hostDoes s op) =
    hostStatement (fun w s => exec (decode w) s) op { s with turn := .host } :=
  step_host rfl rfl

/-- A register write by its own name, CMD apart. -/
theorem step_hostDoes_wr (s : State) {r : Reg} (v : Word) (hr : r ≠ .cmd) :
    step (hostDoes s (asmWr s.platform r v)) = .next (writeReg r v { s with turn := .host }) := by
  rw [step_hostDoes]
  simp only [asmWr, hostStatement, hostRegWrite, accessedReg_own s.platform r]

/-- Everything one step can do. -/
theorem step_cases {s t : State} (h : step s = .next t) :
    (∃ rest, s.sched = .resetInput :: rest ∧ t = resetUnit { s with sched := rest }) ∨
    (∃ L, s.busy = true ∧ s.lat = some L ∧
      exec (decode L.cmd) { s with sched := s.sched.tail, turn := .unit } = .next t) ∨
    (∃ a, t = { s with sched := s.sched.tail, turn := a }) ∨
    (∃ op ops, s.prog = op :: ops ∧ hostStatement (fun w s => exec (decode w) s) op
      { s with sched := s.sched.tail, turn := .host, prog := ops } = .next t) := by
  rw [step, agentStep_eq] at h
  split at h
  · unfold hostMove at h
    split at h
    · cases h; exact .inr (.inr (.inl ⟨_, rfl⟩))
    · rename_i op ops hp; exact .inr (.inr (.inr ⟨op, ops, hp, h⟩))
  · unfold unitMove at h
    split at h
    · rename_i L hb hl; exact .inr (.inl ⟨L, hb, hl, h⟩)
    · cases h; exact .inr (.inr (.inl ⟨_, rfl⟩))
    · cases h; exact .inr (.inr (.inl ⟨_, rfl⟩))
  · rename_i he
    cases h
    unfold nextEvent at he
    split at he
    · rename_i e rest hs; subst he; exact .inl ⟨rest, hs, by rw [hs]; rfl⟩
    · split at he <;> cases he

end Sys2Proof.Machine
end

