-- ==== Sys2Proof/Laws/Engines.lean ====
section
/-! SUPPORT. Laws of the arithmetic helpers (00_scope.md R11) and of the engines' sums: rounding, one channel, the weights of
the blur and its two passes. -/

namespace Sys2Proof.Machine

open Sys2Proof.Safety

/-! ### Rounding and channels -/

/-- An exact multiple is its own rounding. -/
theorem rdiv_mul_self {d : Int} (hd : d ≠ 0) (v : Int) : rdiv (d * v) d = v := by
  simp only [rdiv, floordiv]
  split
  · rename_i h
    rw [show 2 * (d * v) + d = d + (2 * d) * v by ring, Int.add_mul_ediv_left _ _ (by omega),
      Int.ediv_eq_zero_of_lt (by omega) (by omega), zero_add]
  · have h : 0 < -d := by omega
    rw [show 2 * -(d * v) + -d = -d + (2 * -d) * v by ring, Int.add_mul_ediv_left _ _ (by omega),
      Int.ediv_eq_zero_of_lt (by omega) (by omega), zero_add]

/-- A numerator between two multiples of the divisor rounds between them. -/
theorem rdiv_between {n d lo hi : Int} (hd : 0 < d) (h1 : lo * d ≤ n) (h2 : n ≤ hi * d) : lo ≤ rdiv n d ∧ rdiv n d ≤ hi := by
  simp only [rdiv, floordiv, if_pos hd]
  constructor
  · rw [Int.le_ediv_iff_mul_le (by omega)]; nlinarith
  · rw [← Int.lt_add_one_iff, Int.ediv_lt_iff_lt_mul (by omega)]; nlinarith

/-- A common positive factor of numerator and divisor does not change the rounding. -/
theorem rdiv_mul_mul {k n d : Int} (hk : 0 < k) (hd : 0 < d) : rdiv (k * n) (k * d) = rdiv n d := by
  simp only [rdiv, floordiv, if_pos hd, if_pos (Int.mul_pos hk hd)]
  rw [show 2 * (k * n) + k * d = k * (2 * n + d) by ring, show 2 * (k * d) = k * (2 * d) by ring,
    Int.mul_ediv_mul_of_pos _ _ hk]

/-- A clamped value is a byte. -/
theorem clamp8_bounds (v : Int) : 0 ≤ clamp8 v ∧ clamp8 v ≤ 255 := by
  simp only [clamp8]; omega

/-- The byte of a channel result is the clamped rounded value (00_scope.md R11). -/
theorem chan_toNat (n d : Int) : ((chan n d).toNat : Int) = clamp8 (rdiv n d) := by
  obtain ⟨h0, h1⟩ := clamp8_bounds (rdiv n d)
  simp only [chan, BitVec.toNat_ofInt]
  omega

/-- A channel value scaled by the divisor comes back. -/
theorem chan_mul_self {d : Int} (hd : d ≠ 0) (v : Byte) : chan (d * (v.toNat : Int)) d = v := by
  have hv := v.isLt
  refine BitVec.eq_of_toNat_eq ?_
  have h := chan_toNat (d * (v.toNat : Int)) d
  rw [rdiv_mul_self hd] at h
  simp only [clamp8] at h
  omega

theorem channel_bounds (p : Pixel) (c : Fin 4) : 0 ≤ channel p c ∧ channel p c ≤ 255 := by
  have hr := p.r.isLt
  have hg := p.g.isLt
  have hb := p.b.isLt
  have ha := p.a.isLt
  match c with
  | 0 | 1 | 2 | 3 => simp only [channel]; omega

/-! ### The weights of the blur -/

/-- `binomial` is the binomial coefficient (43_separable_blur.md R192). -/
theorem binomial_eq_choose {n k : Nat} (h : k ≤ n) : binomial n k = n.choose k := by
  rw [binomial, Nat.choose_eq_factorial_div_factorial h]

/-- A sum over the taps, as a sum over 0 .. 2n. -/
theorem sumOver_blurTaps (n : Nat) (f : Int → Int) :
    sumOver (blurTaps n) f = ∑ k ∈ Finset.range (2 * n + 1), f ((k : Int) - n) := by
  simp only [sumOver, blurTaps, List.map_map]
  rfl

theorem blurWeight_tap {n k : Nat} (h : k ≤ 2 * n) : blurWeight n ((k : Int) - n) = ((2 * n).choose k : Int) := by
  rw [blurWeight, show ((n : Int) + ((k : Int) - n)).toNat = k by omega, binomial_eq_choose h]

/-- Weights of the taps pulled through a sum. -/
theorem sum_weights (n : Nat) (f : Int → Int) : sumOver (blurTaps n) (fun j => blurWeight n j * f j) =
    ∑ k ∈ Finset.range (2 * n + 1), ((2 * n).choose k : Int) * f ((k : Int) - n) := by
  rw [sumOver_blurTaps]
  refine Finset.sum_congr rfl fun k hk => ?_
  rw [blurWeight_tap (by have := Finset.mem_range.1 hk; omega)]

/-- The weights sum to 4^n (43_separable_blur.md R192). -/
theorem sum_choose_eq (n : Nat) : ∑ k ∈ Finset.range (2 * n + 1), ((2 * n).choose k : Int) = 4 ^ n := by
  have h := Nat.sum_range_choose (2 * n)
  rw [pow_mul] at h
  exact_mod_cast h

theorem blurTotal_eq (n : Nat) : blurTotal n = 4 ^ n := by
  rw [← sum_choose_eq n, blurTotal, sumOver_blurTaps]
  exact Finset.sum_congr rfl fun k hk => blurWeight_tap (by have := Finset.mem_range.1 hk; omega)

/-- A weighted sum of values between two bounds lies between the bounds times the total. -/
theorem sum_weights_between {n : Nat} {f : Int → Int} {lo hi : Int} (h : ∀ j, lo ≤ f j ∧ f j ≤ hi) :
    lo * 4 ^ n ≤ sumOver (blurTaps n) (fun j => blurWeight n j * f j) ∧
    sumOver (blurTaps n) (fun j => blurWeight n j * f j) ≤ hi * 4 ^ n := by
  rw [sum_weights, ← sum_choose_eq n, Finset.mul_sum, Finset.mul_sum]
  constructor <;> refine Finset.sum_le_sum fun k _ => ?_
  · nlinarith [(h ((k : Int) - n)).1, Int.natCast_nonneg ((2 * n).choose k)]
  · nlinarith [(h ((k : Int) - n)).2, Int.natCast_nonneg ((2 * n).choose k)]

/-- Both passes keep a channel between the bounds of the input, times the total of each axis (43_separable_blur.md R193). -/
theorem vPass_between {n : Nat} {img : Image} {c : Fin 4} {lo hi : Int} {x y : Nat}
    (h : ∀ X Y : Int, lo ≤ channel (clampedAt img X Y) c ∧ channel (clampedAt img X Y) c ≤ hi) :
    lo * (4 ^ n * 4 ^ n) ≤ vPass n img x y c ∧ vPass n img x y c ≤ hi * (4 ^ n * 4 ^ n) := by
  have hh : ∀ i : Int, lo * 4 ^ n ≤ hPass n img x (clampCoord img.height ((y : Int) + i)) c ∧
      hPass n img x (clampCoord img.height ((y : Int) + i)) c ≤ hi * 4 ^ n :=
    fun i => sum_weights_between fun j => h _ _
  have := sum_weights_between (n := n) hh
  rw [mul_assoc, mul_assoc] at this
  exact this

/-- The two passes over a built image are the direct 2-D weighted sum (43_separable_blur.md R193). -/
theorem vPass_buildImage {s : State} {L : Latch} {n x y : Nat} (c : Fin 4) (hw : 0 < latW L) (hh : 0 < latH L) :
    vPass n (buildImage (latW L) (latH L) (inPixel s L)) x y c = binomialSum s L n x y c := by
  rw [vPass, sum_weights, binomialSum]
  refine Finset.sum_congr rfl fun i _ => ?_
  rw [hPass, sum_weights, Finset.mul_sum]
  refine Finset.sum_congr rfl fun j _ => ?_
  rw [buildImage_width, buildImage_height, pixelAt_buildImage _ (clampCoord_lt hw _) (clampCoord_lt hh _), mul_assoc]
  rfl

end Sys2Proof.Machine
end

