-- ==== Sys2Proof/Laws/PerInstr.lean ====
section
/-! SUPPORT. Per-instruction laws: one family, one lemma per constructor. RoundTrip: the decoder reads a well-formed
instruction back from its word (30_encoding.md R106). -/

namespace Sys2Proof.Laws.RoundTrip

/-- The decoder gives `i` back from its word. -/
def Statement (i : Instr) : Prop := i.WellFormed → decode (encode i) = i

theorem copy (sel : BitVec 4) (ign : BitVec 24) : Statement (.copy sel ign) :=
  fun _ => decode_copy sel ign

theorem cmId (ign : BitVec 24) : Statement (.cmId ign) :=
  fun _ => (decode_cm 0x0#4 ign).trans rfl

theorem cmGray (ign : BitVec 24) : Statement (.cmGray ign) :=
  fun _ => (decode_cm 0x1#4 ign).trans rfl

theorem cmBin (ign : BitVec 24) : Statement (.cmBin ign) :=
  fun _ => (decode_cm 0x2#4 ign).trans rfl

theorem cmUser (ign : BitVec 24) : Statement (.cmUser ign) :=
  fun _ => (decode_cm 0x3#4 ign).trans rfl

theorem cmRsvLo (sel : BitVec 4) (ign : BitVec 24) : Statement (.cmRsvLo sel ign) :=
  fun h => (decode_cm sel ign).trans (decodeCm_lo ign (of_decide_eq_true h).1 (of_decide_eq_true h).2)

theorem cmRsvHi (sel : BitVec 4) (ign : BitVec 24) : Statement (.cmRsvHi sel ign) :=
  fun h => (decode_cm sel ign).trans (decodeCm_hi ign (of_decide_eq_true h))

theorem firId (ign : BitVec 24) : Statement (.firId ign) :=
  fun _ => (decode_fir 0x0#4 ign).trans rfl

theorem firBlur (ign : BitVec 24) : Statement (.firBlur ign) :=
  fun _ => (decode_fir 0x1#4 ign).trans rfl

theorem firEdge (ign : BitVec 24) : Statement (.firEdge ign) :=
  fun _ => (decode_fir 0x2#4 ign).trans rfl

theorem firUser (ign : BitVec 24) : Statement (.firUser ign) :=
  fun _ => (decode_fir 0x3#4 ign).trans rfl

theorem firRsvLo (sel : BitVec 4) (ign : BitVec 24) : Statement (.firRsvLo sel ign) :=
  fun h => (decode_fir sel ign).trans (decodeFir_lo ign (of_decide_eq_true h).1 (of_decide_eq_true h).2)

theorem firRsvHi (sel : BitVec 4) (ign : BitVec 24) : Statement (.firRsvHi sel ign) :=
  fun h => (decode_fir sel ign).trans (decodeFir_hi ign (of_decide_eq_true h))

theorem blur (sel : BitVec 4) (ign : BitVec 24) : Statement (.blur sel ign) :=
  fun _ => decode_blur sel ign

theorem opRsvLo (op : BitVec 4) (sel : BitVec 4) (ign : BitVec 24) : Statement (.opRsvLo op sel ign) :=
  fun h => decode_opLo sel ign (of_decide_eq_true h).1 (of_decide_eq_true h).2

theorem opRsvHi (op : BitVec 4) (sel : BitVec 4) (ign : BitVec 24) : Statement (.opRsvHi op sel ign) :=
  fun h => decode_opHi sel ign (of_decide_eq_true h)

end Sys2Proof.Laws.RoundTrip
end

