-- ==== Sys2Proof/Tests/Slice0.lean ====
section
/-! SUPPORT. Tests: well-formedness, decoding of words written out from 30_encoding.md, single steps on the vectors of
95_test_vectors.md, and for every statement with hypotheses a concrete state that meets them. Expected values come from the
spec's tables. -/

namespace Sys2Proof.Tests

open Sys2Proof.Machine Sys2Proof.Safety

set_option maxRecDepth 8000

/-! ### Small states -/

/-- The opaque grey g(v) of 95_test_vectors.md. -/
def g (v : Byte) : Pixel := ⟨v, v, v, 255#8⟩

/-- The reset state with a w x h input at `src` and output at `dst`. -/
def idleAt (w h src dst : Nat) : State :=
  { State.reset with
    width := BitVec.ofNat 16 w, height := BitVec.ofNat 16 h, srcLen := BitVec.ofNat 32 (w * h)
    srcBase := baseBits (BitVec.ofNat 32 src), dstBase := baseBits (BitVec.ofNat 32 dst) }

/-- The buffers at 0x1000 and 0x2000, holding the input pixels. -/
def idle (w h : Nat) (ps : List Pixel) : State :=
  { idleAt w h 0x1000 0x2000 with mem := Memory.writePixels [] 0x1000 ps }

/-- The command word `c` accepted in `s`, with the unit moving. -/
def running (c : Word) (s : State) : State :=
  { s with turn := .unit, lastCmd := c, busy := true, lat := some (takeLatch c s) }

/-- The first `n` pixels at 0x2000 after a step. -/
def outPixels (n : Nat) : Outcome → List Pixel
  | .next t => (List.range n).map fun k => memPixel t.mem (0x2000 + 4 * k)
  | .fault _ => []
  | .refused _ => []

/-- The output of one completed command. -/
def outputOf (i : Instr) (s : State) (n : Nat) : List Pixel := outPixels n (exec i (running (encode i) s))

/-- What a register reads after a step. -/
def regAfter (r : Reg) : Outcome → Option Word
  | .next t => some (readReg r t)
  | .fault _ => none
  | .refused _ => none

/-- The state after a step, or the state before it. -/
def after (s : State) (o : Outcome) : State :=
  match o with
  | .next t => t
  | .fault _ => s
  | .refused _ => s

/-! ### Well-formedness: each check refuses an ill-formed term -/

theorem test_wf_cmRsvLo_refuses : Instr.wellFormed (.cmRsvLo 3#4 0#24) = false ∧ Instr.wellFormed (.cmRsvLo 8#4 0#24) = false := by
  decide
theorem test_wf_cmRsvHi_refuses : Instr.wellFormed (.cmRsvHi 7#4 0#24) = false := by decide
theorem test_wf_firRsvLo_refuses : Instr.wellFormed (.firRsvLo 3#4 0#24) = false ∧ Instr.wellFormed (.firRsvLo 8#4 0#24) = false := by
  decide
theorem test_wf_firRsvHi_refuses : Instr.wellFormed (.firRsvHi 7#4 0#24) = false := by decide
theorem test_wf_opRsvLo_refuses :
    Instr.wellFormed (.opRsvLo 3#4 0#4 0#24) = false ∧ Instr.wellFormed (.opRsvLo 8#4 0#4 0#24) = false := by decide
theorem test_wf_opRsvHi_refuses : Instr.wellFormed (.opRsvHi 7#4 0#4 0#24) = false := by decide

/-! ### Decoding: words from 30_encoding.md R108 and 95_test_vectors.md V-ENC -/

theorem test_decode_copy : decode 0x00000000#32 = .copy 0#4 0#24 ∧ decode 0x000000F0#32 = .copy 15#4 0#24 := by decide
theorem test_decode_cmId : decode 0x00000001#32 = .cmId 0#24 := by decide
theorem test_decode_cmGray : decode 0b00000000000000000000000000010001#32 = .cmGray 0#24 := by decide
theorem test_decode_cmBin : decode 0xABCDEF21#32 = .cmBin 0xABCDEF#24 := by decide
theorem test_decode_cmUser : decode 0x00000031#32 = .cmUser 0#24 := by decide
theorem test_decode_cmRsvLo : decode 0x00000041#32 = .cmRsvLo 4#4 0#24 ∧ decode 0x00000071#32 = .cmRsvLo 7#4 0#24 := by decide
theorem test_decode_cmRsvHi : decode 0x00000081#32 = .cmRsvHi 8#4 0#24 ∧ decode 0x000000F1#32 = .cmRsvHi 15#4 0#24 := by decide
theorem test_decode_firId : decode 0x00000002#32 = .firId 0#24 := by decide
theorem test_decode_firBlur : decode 0b00000000000000000000000000010010#32 = .firBlur 0#24 := by decide
theorem test_decode_firEdge : decode 0x00000022#32 = .firEdge 0#24 := by decide
theorem test_decode_firUser : decode 0x00000032#32 = .firUser 0#24 := by decide
theorem test_decode_firRsvLo : decode 0x00000052#32 = .firRsvLo 5#4 0#24 ∧ decode 0x00000042#32 = .firRsvLo 4#4 0#24 := by decide
theorem test_decode_firRsvHi : decode 0x00000082#32 = .firRsvHi 8#4 0#24 := by decide
theorem test_decode_blur : decode 0b00000000000000000000000001110011#32 = .blur 7#4 0#24 := by decide
theorem test_decode_opRsvLo : decode 0x00000004#32 = .opRsvLo 4#4 0#4 0#24 ∧ decode 0x000000F7#32 = .opRsvLo 7#4 15#4 0#24 := by
  decide
theorem test_decode_opRsvHi :
    decode 0x00000008#32 = .opRsvHi 8#4 0#4 0#24 ∧ decode 0xFFFFFFFF#32 = .opRsvHi 15#4 15#4 0xFFFFFF#24 := by decide

/-- Lane 0 is the least significant byte (20_memory.md R74); three bytes are no command (30_encoding.md R110). -/
theorem test_decode_bytes : decodeBytes [0x21#8, 0xEF#8, 0xCD#8, 0xAB#8, 0x55#8] = .ok (.cmBin 0xABCDEF#24, [0x55#8]) := by rfl
theorem test_decode_truncated : decodeBytes [0x21#8, 0xEF#8, 0xCD#8] = .error .truncated := by rfl
theorem test_table_word : decodeTableWord 32 0x32 = some (.firUser 0#24) ∧ decodeTableWord 8 0xF21 = some (.cmBin 0#24) := by decide

/-! ### One completion per command, from the vectors of 95_test_vectors.md -/

/-- 40_command.md R136, example. -/
theorem test_copy : outputOf (.copy 0#4 0#24) (idle 1 1 [⟨10#8, 20#8, 30#8, 40#8⟩]) 1 = [⟨10#8, 20#8, 30#8, 40#8⟩] := by decide
/-- V-CM-01. -/
theorem test_cmId : outputOf (.cmId 0#24) (idle 1 1 [⟨200#8, 0#8, 17#8, 255#8⟩]) 1 = [⟨200#8, 0#8, 17#8, 255#8⟩] := by decide
/-- V-CM-05 and V-CM-06 (an exact half). -/
theorem test_cmGray : outputOf (.cmGray 0#24) (idle 2 1 [⟨100#8, 150#8, 200#8, 77#8⟩, ⟨0#8, 68#8, 40#8, 5#8⟩]) 2 =
    [⟨143#8, 143#8, 143#8, 77#8⟩, ⟨52#8, 52#8, 52#8, 5#8⟩] := by decide
/-- V-CM-02, V-CM-04. -/
theorem test_cmGray_primaries : outputOf (.cmGray 0#24) (idle 2 1 [⟨255#8, 0#8, 0#8, 255#8⟩, ⟨0#8, 0#8, 255#8, 0#8⟩]) 2 =
    [⟨54#8, 54#8, 54#8, 255#8⟩, ⟨18#8, 18#8, 18#8, 0#8⟩] := by decide
/-- V-CM-09a (the boundary, not grey) and V-CM-09b (one below). -/
theorem test_cmBin : outputOf (.cmBin 0#24) (idle 2 1 [⟨25#8, 161#8, 105#8, 3#8⟩, ⟨28#8, 145#8, 255#8, 3#8⟩]) 2 =
    [⟨255#8, 255#8, 255#8, 3#8⟩, ⟨0#8, 0#8, 0#8, 3#8⟩] := by decide
/-- V-CM-07, V-CM-08. -/
theorem test_cmBin_greys : outputOf (.cmBin 0#24) (idle 2 1 [g 127#8, g 128#8]) 2 = [g 0#8, g 255#8] := by decide

/-- CM_COEF of V-CM-13: the identity but M[0][0] = 2.0, M[1][4] = -300.0, M[2][2] = 0.5, M[3][3] = 0.5. -/
def matrix13 : Vector Word 20 :=
  #v[0x00020000#32, 0#32, 0#32, 0#32, 0#32, 0#32, 0x00010000#32, 0#32, 0#32, 0xFED40000#32,
     0#32, 0#32, 0x00008000#32, 0#32, 0#32, 0#32, 0#32, 0#32, 0x00008000#32, 0#32]

/-- CM_COEF of V-CM-14: the largest magnitudes. -/
def matrix14 : Vector Word 20 :=
  #v[0x7FFFFFFF#32, 0#32, 0#32, 0#32, 0#32, 0#32, 0x80000000#32, 0#32, 0#32, 0#32,
     0x7FFFFFFF#32, 0x7FFFFFFF#32, 0x7FFFFFFF#32, 0x7FFFFFFF#32, 0x7FFFFFFF#32, 0#32, 0#32, 0#32, 0x00010000#32, 0#32]

/-- V-CM-13. -/
theorem test_cmUser : outputOf (.cmUser 0#24)
    { idle 2 1 [⟨200#8, 7#8, 1#8, 255#8⟩, ⟨100#8, 7#8, 3#8, 1#8⟩] with cmCoef := matrix13 } 2 =
    [⟨255#8, 0#8, 1#8, 128#8⟩, ⟨200#8, 0#8, 2#8, 1#8⟩] := by decide
/-- V-CM-14. -/
theorem test_cmUser_extremes : outputOf (.cmUser 0#24) { idle 1 1 [g 255#8] with cmCoef := matrix14 } 1 =
    [⟨255#8, 0#8, 255#8, 255#8⟩] := by decide
/-- V-CM-18, on SEL = 0x4. -/
theorem test_cmRsvLo : outputOf (.cmRsvLo 4#4 0#24) (idle 1 1 [⟨5#8, 6#8, 7#8, 8#8⟩]) 1 = [⟨5#8, 6#8, 7#8, 8#8⟩] := by decide
/-- V-CM-18. -/
theorem test_cmRsvHi : outputOf (.cmRsvHi 15#4 0#24) { idle 1 1 [⟨5#8, 6#8, 7#8, 8#8⟩] with cmCoef := matrix14 } 1 =
    [⟨5#8, 6#8, 7#8, 8#8⟩] := by decide
/-- 42_fir_convolver.md R175. -/
theorem test_firId : outputOf (.firId 0#24) (idle 2 1 [⟨9#8, 8#8, 7#8, 6#8⟩, ⟨1#8, 2#8, 3#8, 4#8⟩]) 2 =
    [⟨9#8, 8#8, 7#8, 6#8⟩, ⟨1#8, 2#8, 3#8, 4#8⟩] := by decide
/-- V-FIR-02. -/
theorem test_firBlur : outputOf (.firBlur 0#24) (idle 2 1 [g 0#8, g 255#8]) 2 = [g 64#8, g 191#8] := by decide
/-- V-FIR-08, its rows top to bottom. -/
theorem test_firBlur_rows : (outputOf (.firBlur 0#24) (idle 3 3 [⟨10#8, 0#8, 0#8, 1#8⟩, ⟨20#8, 0#8, 0#8, 2#8⟩,
      ⟨30#8, 0#8, 0#8, 3#8⟩, ⟨40#8, 0#8, 0#8, 4#8⟩, ⟨50#8, 0#8, 0#8, 5#8⟩, ⟨60#8, 0#8, 0#8, 6#8⟩, ⟨70#8, 0#8, 0#8, 7#8⟩,
      ⟨80#8, 0#8, 0#8, 8#8⟩, ⟨90#8, 0#8, 0#8, 9#8⟩]) 9).map Pixel.r =
    [20#8, 28#8, 35#8, 43#8, 50#8, 58#8, 65#8, 73#8, 80#8] := by decide
/-- V-FIR-07. -/
theorem test_firEdge : outputOf (.firEdge 0#24) (idle 4 1 [g 0#8, g 0#8, g 100#8, g 100#8]) 4 =
    [g 0#8, g 0#8, g 255#8, g 0#8] := by decide
/-- V-FIR-03. -/
theorem test_firEdge_single : outputOf (.firEdge 0#24) (idle 1 1 [⟨40#8, 50#8, 60#8, 70#8⟩]) 1 = [⟨0#8, 0#8, 0#8, 70#8⟩] := by
  decide

/-- FIR_COEF of V-FIR-19: (0, 0, 0; -1, 0, 1; 0, 0, 0). -/
def kernel19 : Vector Word 9 := #v[0#32, 0#32, 0#32, 0xFFFF0000#32, 0#32, 0x00010000#32, 0#32, 0#32, 0#32]

/-- FIR_COEF of V-FIR-17: all nine -1.0. -/
def kernel17 : Vector Word 9 := #v[0xFFFF0000#32, 0xFFFF0000#32, 0xFFFF0000#32, 0xFFFF0000#32, 0xFFFF0000#32, 0xFFFF0000#32,
  0xFFFF0000#32, 0xFFFF0000#32, 0xFFFF0000#32]

/-- V-FIR-19: the sum is 0, so the divisor is 65536, and the columns run left to right. -/
theorem test_firUser : outputOf (.firUser 0#24) { idle 3 1 [g 0#8, g 10#8, g 40#8] with firCoef := kernel19 } 3 =
    [g 10#8, g 40#8, g 30#8] := by decide
/-- V-FIR-17: a negative sum divides. -/
theorem test_firUser_negative_sum : outputOf (.firUser 0#24) { idle 3 1 [g 0#8, g 90#8, g 180#8] with firCoef := kernel17 } 3 =
    [g 30#8, g 90#8, g 150#8] := by decide
/-- V-FIR-20. -/
theorem test_firRsvLo : outputOf (.firRsvLo 5#4 0#24) (idle 1 1 [⟨1#8, 2#8, 3#8, 4#8⟩]) 1 = [⟨1#8, 2#8, 3#8, 4#8⟩] := by decide
/-- V-ENC-08. -/
theorem test_firRsvHi : outputOf (.firRsvHi 8#4 0#24) { idle 1 1 [⟨1#8, 2#8, 3#8, 4#8⟩] with firCoef := kernel17 } 1 =
    [⟨1#8, 2#8, 3#8, 4#8⟩] := by decide
/-- V-BL-12. -/
theorem test_blur : outputOf (.blur 0#4 0#24) { idle 2 2 [g 0#8, g 255#8, g 255#8, g 0#8] with blurRadius := 0x00010000#32 } 4 =
    [g 96#8, g 159#8, g 159#8, g 96#8] := by decide
/-- V-BL-09: the half-width saturates at 16. -/
theorem test_blur_saturates : outputOf (.blur 0#4 0#24) { idle 2 1 [g 0#8, g 255#8] with blurRadius := 0x7FFFFFFF#32 } 2 =
    [g 110#8, g 145#8] := by decide
/-- 40_command.md R137, example. -/
theorem test_opRsvLo : outputOf (.opRsvLo 7#4 15#4 0#24) (idle 1 1 [⟨1#8, 2#8, 3#8, 4#8⟩]) 1 = [⟨1#8, 2#8, 3#8, 4#8⟩] := by decide
/-- V-ENC-11. -/
theorem test_opRsvHi : outputOf (.opRsvHi 15#4 15#4 0xFFFFFF#24) (idle 1 1 [⟨1#8, 2#8, 3#8, 4#8⟩]) 1 = [⟨1#8, 2#8, 3#8, 4#8⟩] := by
  decide

/-! ### Life of a command, from V-LC -/

/-- The step in which the host writes `w` to CMD. -/
def issue (w : Word) (s : State) : Outcome := step (s.withFetchWord 32 w.toNat)

/-- The step in which the host writes `v` to register `r`. -/
def wr (r : Reg) (v : Word) (s : State) : Outcome := step (hostDoes s (asmWr s.platform r v))

/-- V-LC-01: the first command after reset, W = 0. -/
theorem test_issue_after_reset : regAfter .status (issue 0x11#32 State.reset) = some 0x00000104#32 := by decide
/-- V-LC-02, V-LC-09. -/
theorem test_invalid_buffer :
    regAfter .status (issue 0x00#32 { idleAt 2 2 0x1000 0x2000 with srcLen := 3#32 }) = some 0x00000104#32 ∧
    regAfter .status (issue 0x00#32 { idleAt 2 1 0x1000 0x1004 with srcLen := 3#32 }) = some 0x00000104#32 := by decide
/-- V-LC-04. -/
theorem test_addr_range : regAfter .status (issue 0x00#32 (idleAt 65535 65535 0 0x10)) = some 0x00000204#32 := by decide
/-- V-LC-06, V-LC-07. -/
theorem test_overlap : regAfter .status (issue 0x12#32 (idleAt 2 1 0x1000 0x1004)) = some 0x00000304#32 ∧
    regAfter .status (issue 0x00#32 (idleAt 2 1 0x1000 0x1000)) = some 0x00000304#32 := by decide
/-- V-LC-05, V-LC-08: a range that ends at 2^32 and adjacent ranges are legal. -/
theorem test_legal_edges : regAfter .status (issue 0x00#32 (idleAt 1 1 0xFFFFFFFC 0x1000)) = some 0x00000001#32 ∧
    regAfter .status (issue 0x00#32 (idleAt 2 1 0x1000 0x1008)) = some 0x00000001#32 := by decide
/-- V-ENC-04: CMD reads back the ignored bits. -/
theorem test_cmd_read_back : regAfter .cmd (issue 0xABCDEF21#32 (idleAt 2 1 0x1000 0x2000)) = some 0xABCDEF21#32 := by decide
/-- V-LC-03, V-LC-12: completion, and a second CMD write while busy. -/
theorem test_done : regAfter .status (step (running 0#32 (idle 1 1 [g 7#8]))) = some 0x00000002#32 := by decide
theorem test_overrun : regAfter .status (issue 0x21#32 (running 0#32 (idle 1 1 [g 7#8]))) = some 0x00000009#32 ∧
    regAfter .cmd (issue 0x21#32 (running 0#32 (idle 1 1 [g 7#8]))) = some 0#32 := by decide

/-- Memory ends at 0x2004, so the second output pixel is not admitted (V-LC-10). -/
def shortMemory : State :=
  running 0#32 { idle 2 1 [g 1#8, g 2#8] with platform := { State.reset.platform with memory := [⟨0, 0x2004⟩] } }

/-- V-LC-10. -/
theorem test_bus_error : regAfter .status (step shortMemory) = some 0x00000404#32 := by rfl
/-- V-LC-13: the register changes, the running command's latch does not. -/
theorem test_latch_keeps : (after State.reset (wr (.cmCoef 0) 0#32 (running 0#32 (idle 1 1 [g 7#8])))).lat =
    some (takeLatch 0#32 (idle 1 1 [g 7#8])) ∧
    regAfter (.cmCoef 0) (wr (.cmCoef 0) 0#32 (running 0#32 (idle 1 1 [g 7#8]))) = some 0#32 := by decide

/-- The state after V-LC-01, with IRQ_EN. -/
def refused : State := { State.reset with err := true, errcode := 1#4, ctrlIrqEn := true }

/-- V-LC-14. -/
theorem test_status_w1c : regAfter .status (wr .status 4#32 refused) = some 0#32 ∧
    regAfter .status (wr .status 2#32 refused) = some 0x104#32 := by decide
/-- V-LC-15. -/
theorem test_irq : irq refused = true ∧ irq (after refused (wr .status 4#32 refused)) = false := by decide
/-- V-LC-16. -/
theorem test_soft_reset : regAfter .status (wr .ctrl 3#32 (running 0#32 refused)) = some 0#32 ∧
    regAfter .ctrl (wr .ctrl 3#32 (running 0#32 refused)) = some 0#32 := ⟨rfl, rfl⟩
/-- V-LC-18, and V-LC-11 (the low address bits read 0). -/
theorem test_register_bits : regAfter .width (wr .width 0x12345678#32 State.reset) = some 0x5678#32 ∧
    regAfter .firCfg (wr .firCfg 0xFFFFFFFE#32 State.reset) = some 0#32 ∧
    regAfter .srcBase (wr .srcBase 0x1003#32 State.reset) = some 0x1000#32 := by decide
/-- V-LC-17. -/
theorem test_reserved_offsets : regAt 0x02C = .reserved ∧ regAt 0x090 = .reserved ∧ regAt 0xFFC = .reserved ∧
    readReg .reserved State.reset = 0#32 := by decide
/-- The register map of 10_state.md section 2. -/
theorem test_register_map : regAt 0x00C = .cmd ∧ regAt 0x028 = .firCfg ∧ regAt 0x040 = .cmCoef 0 ∧ regAt 0x08C = .cmCoef 19 ∧
    regAt 0x0A0 = .firCoef 0 ∧ regAt 0x0C0 = .firCoef 8 ∧ regAt 0x0C4 = .reserved := by decide
/-- The example of 20_memory.md R72. -/
theorem test_pixel_word : pixelWord ⟨0x11#8, 0x22#8, 0x33#8, 0x44#8⟩ = 0x44332211#32 ∧
    pixelOfWord 0x44332211#32 = ⟨0x11#8, 0x22#8, 0x33#8, 0x44#8⟩ := by decide
/-- The memory's canonical form: writing the value of an unlisted byte takes the entry out. -/
theorem test_memory_canonical : Memory.write [(5, 1#8)] 5 0#8 = [] ∧ Memory.write [(5, 1#8)] 3 2#8 = [(3, 2#8), (5, 1#8)] := by
  decide
/-- The rounding of V-CM-16: an exact half goes up. -/
theorem test_rdiv : rdiv (-32768) 65536 = 0 ∧ rdiv 32768 65536 = 1 ∧ rdiv 98304 65536 = 2 ∧ rdiv 90 (-9) = -10 := by decide
/-- 43_separable_blur.md R192, n = 2. -/
theorem test_blur_weights : (blurTaps 2).map (blurWeight 2) = [1, 4, 6, 4, 1] := by decide

/-! ### Witnesses: every statement's hypotheses are met -/

/-- A 1x1 command word `c` about to complete. -/
def one (c : Word) : State := running c (idle 1 1 [⟨10#8, 20#8, 30#8, 40#8⟩])

/-- Its latch. -/
def oneLatch (c : Word) : Latch := takeLatch c (idle 1 1 [⟨10#8, 20#8, 30#8, 40#8⟩])

theorem test_ready (c : Word) : ReadyToComplete (one c) (oneLatch c) ∧ (one c).mem.wf = true :=
  by
  refine ⟨⟨rfl, rfl, rfl, ?_, ?_⟩, ?_⟩
  · exact (by decide : allAdmitted (one 0#32) (oneLatch 0#32) = true)
  · simp [touchesDevice, isDevice, inRegions, one, running, idle, idleAt, State.reset]
  · exact (by decide : (one 0#32).mem.wf = true)

/-- DecodeOfEncodedCommand: the ends of every selector range. -/
theorem test_witness_decodeOfEncoded :
    Instr.WellFormed (.cmRsvLo 4#4 0#24) ∧ Instr.WellFormed (.cmRsvLo 7#4 0#24) ∧ Instr.WellFormed (.cmRsvHi 8#4 0#24) ∧
    Instr.WellFormed (.cmRsvHi 15#4 0#24) ∧ Instr.WellFormed (.firRsvLo 4#4 0#24) ∧ Instr.WellFormed (.firRsvLo 7#4 0#24) ∧
    Instr.WellFormed (.firRsvHi 8#4 0#24) ∧ Instr.WellFormed (.firRsvHi 15#4 0#24) ∧
    Instr.WellFormed (.opRsvLo 4#4 0#4 0#24) ∧ Instr.WellFormed (.opRsvLo 7#4 0#4 0#24) ∧
    Instr.WellFormed (.opRsvHi 8#4 0#4 0#24) ∧ Instr.WellFormed (.opRsvHi 15#4 0#4 0#24) ∧ Instr.WellFormed (.copy 3#4 9#24) := by
  decide

/-- IgnoredBitsHaveNoEffect: two words that differ in IGN, two that differ in SEL for each OP, and the host's turn. -/
theorem test_witness_ignoredBits :
    ((0xABCDEF21#32).extractLsb' 0 8 = (0x21#32 : Word).extractLsb' 0 8 ∧ (one 0#32).turn = .unit) ∧
    ((0xF0#32 : Word).extractLsb' 0 4 = (0x00#32 : Word).extractLsb' 0 4 ∧ (0xF0#32 : Word).extractLsb' 0 4 = 0x0#4) ∧
    ((0x73#32 : Word).extractLsb' 0 4 = (0x03#32 : Word).extractLsb' 0 4 ∧ (0x73#32 : Word).extractLsb' 0 4 = 0x3#4) ∧
    State.reset.turn = .host ∧ State.reset.busy = false ∧ touchesDevice State.reset (takeLatch 0#32 State.reset) = false := by
  decide

/-- StepRunsIssuedCommand, StepRunsLatchedCommand, CompletionIsReached. -/
theorem test_witness_steps :
    (let s := { State.reset with prog := [asmWr State.reset.platform .cmd 0x11#32], sched := [.hostMove] }
     s.prog = asmWr s.platform .cmd 0x11#32 :: [] ∧ s.sched = .hostMove :: []) ∧
    (let s := { State.reset with prog := [asmWr State.reset.platform .cmd 0x11#32] }
     s.prog = asmWr s.platform .cmd 0x11#32 :: [] ∧ s.sched = [] ∧ s.busy = false) ∧
    (let s := { one 0#32 with sched := [.unitMove] }
     s.busy = true ∧ s.lat = some (oneLatch 0#32) ∧ s.sched = .unitMove :: []) ∧
    ((one 0#32).busy = true ∧ (one 0#32).lat = some (oneLatch 0#32) ∧ (one 0#32).sched = []) ∧
    (let s := { one 0#32 with sched := [.hostMove, .hostMove] }
     s.busy = true ∧ s.lat = some (oneLatch 0#32) ∧ s.sched = List.replicate 2 .hostMove) := by decide

/-- HardwareResetSetsEveryRegister (with a running command), SoftResetSetsEveryRegister. -/
theorem test_witness_resets :
    ({ one 0#32 with sched := [.resetInput] }.sched = .resetInput :: [] ∧ (one 0#32).mem.wf = true) ∧
    ((0x00000002#32).getLsbD 1 = true ∧ (one 0#32).mem.wf = true) := by decide

/-- IdAndReservedIgnoreWrites: both ends of the three ranges. -/
theorem test_witness_reserved : ∀ off ∈ [0x02C, 0x03C, 0x090, 0x09C, 0x0C4, 0xFFC], off % 4 = 0 ∧
    (0x02C ≤ off ∧ off ≤ 0x03C ∨ 0x090 ≤ off ∧ off ≤ 0x09C ∨ 0x0C4 ≤ off ∧ off ≤ 0xFFC) := by decide

/-- CtrlWriteSetsInterruptEnable: with and without IRQ_EN. -/
theorem test_witness_ctrl : (0x00000001#32).getLsbD 1 = false ∧ (0xFFFFFFFC#32).getLsbD 1 = false := by decide

/-- OtherRegisterAccessesAreRefused: a width and an alignment, at both ends of the window. -/
theorem test_witness_otherAccesses : (0 < 0x1000 ∧ AccessSize.byte ≠ .word) ∧ (0xFFE < 0x1000 ∧ AccessSize.half ≠ .word) ∧
    (1 < 0x1000 ∧ 1 % 4 ≠ 0) ∧ (0xFFF < 0x1000 ∧ 0xFFF % 4 ≠ 0) := by decide

/-- CommandIsAccepted: an input that ends exactly at 2^32, and adjacent buffers on either side. -/
theorem test_witness_accepted : ∀ s ∈ [idleAt 1 1 0xFFFFFFFC 0x1000, idleAt 2 1 0x1000 0x1008, idleAt 2 1 0x1008 0x1000],
    s.turn = .host ∧ s.busy = false ∧ s.width ≠ 0#16 ∧ s.height ≠ 0#16 ∧ s.width.toNat * s.height.toNat = s.srcLen.toNat ∧
    4 * s.srcBase.toNat + 4 * (s.width.toNat * s.height.toNat) ≤ 2 ^ 32 ∧
    4 * s.dstBase.toNat + 4 * (s.width.toNat * s.height.toNat) ≤ 2 ^ 32 ∧
    (4 * s.dstBase.toNat + 4 * (s.width.toNat * s.height.toNat) ≤ 4 * s.srcBase.toNat ∨
      4 * s.srcBase.toNat + 4 * (s.width.toNat * s.height.toNat) ≤ 4 * s.dstBase.toNat) ∧
    touchesDevice s (takeLatch (encode (.blur 0#4 0#24)) s) = false := by decide

/-- InvalidBufferIsRefused: each of the three causes alone. -/
theorem test_witness_invalid :
    ∀ s ∈ [idleAt 0 1 0x1000 0x2000, idleAt 1 0 0x1000 0x2000, { idleAt 1 1 0x1000 0x2000 with srcLen := 2#32 }],
    s.turn = .host ∧ s.busy = false ∧
    (s.width = 0#16 ∨ s.height = 0#16 ∨ s.width.toNat * s.height.toNat ≠ s.srcLen.toNat) := by decide

/-- AddressRangeIsRefused: the input, and the output, four bytes too long. -/
theorem test_witness_addrRange : ∀ s ∈ [idleAt 2 1 0xFFFFFFFC 0x1000, idleAt 2 1 0x1000 0xFFFFFFFC],
    s.turn = .host ∧ s.busy = false ∧ s.width ≠ 0#16 ∧ s.height ≠ 0#16 ∧ s.width.toNat * s.height.toNat = s.srcLen.toNat ∧
    (2 ^ 32 < 4 * s.srcBase.toNat + 4 * (s.width.toNat * s.height.toNat) ∨
      2 ^ 32 < 4 * s.dstBase.toNat + 4 * (s.width.toNat * s.height.toNat)) := by decide

/-- OverlapIsRefused: equal bases, and one shared pixel on either side. -/
theorem test_witness_overlap : ∀ s ∈ [idleAt 2 1 0x1000 0x1000, idleAt 2 1 0x1000 0x1004, idleAt 2 1 0x1004 0x1000],
    s.turn = .host ∧ s.busy = false ∧ s.width ≠ 0#16 ∧ s.height ≠ 0#16 ∧ s.width.toNat * s.height.toNat = s.srcLen.toNat ∧
    4 * s.srcBase.toNat + 4 * (s.width.toNat * s.height.toNat) ≤ 2 ^ 32 ∧
    4 * s.dstBase.toNat + 4 * (s.width.toNat * s.height.toNat) ≤ 2 ^ 32 ∧
    4 * s.srcBase.toNat < 4 * s.dstBase.toNat + 4 * (s.width.toNat * s.height.toNat) ∧
    4 * s.dstBase.toNat < 4 * s.srcBase.toNat + 4 * (s.width.toNat * s.height.toNat) := by decide

/-- The legal clauses of AddressRangeIsRefused (a range that ends at 2^32) and OverlapIsRefused (adjacent ranges). -/
theorem test_witness_legal :
    (let s := idleAt 1 1 0xFFFFFFFC 0x1000
     s.turn = .host ∧ s.busy = false ∧ 4 * s.srcBase.toNat + 4 * (s.width.toNat * s.height.toNat) = 2 ^ 32 ∧
     4 * s.dstBase.toNat + 4 * (s.width.toNat * s.height.toNat) ≤ 2 ^ 32) ∧
    (let s := idleAt 2 1 0x1000 0x1008
     s.turn = .host ∧ s.busy = false ∧
     4 * s.srcBase.toNat + 4 * (s.width.toNat * s.height.toNat) = 4 * s.dstBase.toNat) := by decide

/-- BusyCommandIsDropped, IdleUnitDoesNothing. -/
theorem test_witness_dropped_idle :
    ({ one 0#32 with turn := .host }.turn = .host ∧ { one 0#32 with turn := .host }.busy = true) ∧
    ({ State.reset with turn := .unit }.turn = .unit ∧ { State.reset with turn := .unit }.busy = false) := by decide

/-- IdentityCommandsCopyTheInput: a latched word of each of the nine commands. -/
theorem test_witness_identity : ∀ i ∈ [Instr.copy 0#4 0#24, .cmId 0#24, .firId 0#24, .cmRsvLo 4#4 0#24, .cmRsvHi 8#4 0#24,
      .firRsvLo 7#4 0#24, .firRsvHi 15#4 0#24, .opRsvLo 4#4 0#4 0#24, .opRsvHi 8#4 0#4 0#24],
    ((∃ sel ign, i = .copy sel ign) ∨ (∃ ign, i = .cmId ign) ∨ (∃ ign, i = .firId ign) ∨
      (∃ sel ign, i = .cmRsvLo sel ign) ∨ (∃ sel ign, i = .cmRsvHi sel ign) ∨
      (∃ sel ign, i = .firRsvLo sel ign) ∨ (∃ sel ign, i = .firRsvHi sel ign) ∨
      (∃ op sel ign, i = .opRsvLo op sel ign) ∨ (∃ op sel ign, i = .opRsvHi op sel ign)) ∧
    ReadyToComplete (one (encode i)) (oneLatch (encode i)) ∧ (one (encode i)).mem.wf = true := by
  intro i hi
  refine ⟨?_, test_ready _⟩
  simp only [List.mem_cons, List.not_mem_nil, or_false] at hi
  rcases hi with rfl | rfl | rfl | rfl | rfl | rfl | rfl | rfl | rfl <;> simp

theorem test_witness_grayscale : ReadyToComplete (one 0x11#32) (oneLatch 0x11#32) ∧ (one 0x11#32).mem.wf = true := test_ready _
theorem test_witness_binary : ReadyToComplete (one 0x21#32) (oneLatch 0x21#32) ∧ (one 0x21#32).mem.wf = true := test_ready _
theorem test_witness_userMatrix : ReadyToComplete (one 0x31#32) (oneLatch 0x31#32) ∧ (one 0x31#32).mem.wf = true := test_ready _
theorem test_witness_firBlur : ReadyToComplete (one 0x12#32) (oneLatch 0x12#32) ∧ (one 0x12#32).mem.wf = true := test_ready _
theorem test_witness_firEdge : ReadyToComplete (one 0x22#32) (oneLatch 0x22#32) ∧ (one 0x22#32).mem.wf = true := test_ready _
theorem test_witness_firUser : ReadyToComplete (one 0x32#32) (oneLatch 0x32#32) ∧ (one 0x32#32).mem.wf = true := test_ready _

/-- A blur of radius `r` about to complete. -/
def blurring (r : Word) : State := running 0x03#32 { idle 1 1 [g 7#8] with blurRadius := r }

/-- Its latch. -/
def blurLatch (r : Word) : Latch := takeLatch 0x03#32 { idle 1 1 [g 7#8] with blurRadius := r }

/-- SeparableBlurCompletes: the radius at both of its bounds, 0 and the smallest positive one. -/
theorem test_witness_blur : (ReadyToComplete (blurring 0#32) (blurLatch 0#32) ∧ (blurring 0#32).mem.wf = true ∧
      (blurLatch 0#32).blurRadius.toInt ≤ 0) ∧
    (ReadyToComplete (blurring 1#32) (blurLatch 1#32) ∧ (blurring 1#32).mem.wf = true ∧
      0 < (blurLatch 1#32).blurRadius.toInt) :=
  ⟨⟨⟨rfl, rfl, rfl, by decide, by decide⟩, by decide, by decide⟩, ⟨⟨rfl, rfl, rfl, by decide, by decide⟩, by decide, by decide⟩⟩

/-- BusErrorEndsTheCommand: byte 0x2004 of the output range is not admitted, bytes 0x2000 .. 0x2003 are. -/
theorem test_witness_busError : ∃ L, shortMemory.turn = .unit ∧ shortMemory.busy = true ∧ shortMemory.lat = some L ∧
    shortMemory.mem.wf = true ∧ touchesDevice shortMemory L = false ∧
    (∃ a, (inInput L a = true ∨ inOutput L a = true) ∧ memOk shortMemory.platform a = false) ∧
    (inOutput L 0x2003 = true ∧ memOk shortMemory.platform 0x2003 = true) :=
  ⟨_, rfl, rfl, rfl, by decide, by decide, ⟨0x2004, by decide, by decide⟩, by decide⟩

/-- The last output byte is a device register. -/
def deviceBuffer : State := { one 0#32 with platform := { State.reset.platform with devices := [⟨0x2003, 1⟩] } }

/-- The same buffers, idle, with the host moving. -/
def deviceIdle : State :=
  { idle 1 1 [g 7#8] with platform := { State.reset.platform with devices := [⟨0x2003, 1⟩] } }

/-- SideEffectBufferFaults: the last byte of the output range, at acceptance and at completion; and the step faults. -/
theorem test_witness_deviceAccept : deviceIdle.turn = .host ∧ deviceIdle.busy = false ∧
    checkLatch (takeLatch (encode (.copy 0#4 0#24)) deviceIdle) = none ∧
    inOutput (takeLatch (encode (.copy 0#4 0#24)) deviceIdle) 0x2003 = true ∧ memOk deviceIdle.platform 0x2003 = true ∧
    isDevice deviceIdle.platform 0x2003 = true := by decide
theorem test_device_accept_faults : issue 0#32 deviceIdle = .fault .sideEffectBuffer := by rfl
theorem test_witness_device : ∃ L a, deviceBuffer.turn = .unit ∧ deviceBuffer.busy = true ∧ deviceBuffer.lat = some L ∧
    (inInput L a = true ∨ inOutput L a = true) ∧ memOk deviceBuffer.platform a = true ∧ isDevice deviceBuffer.platform a = true :=
  ⟨oneLatch 0#32, 0x2003, rfl, rfl, rfl, by decide, by decide, by decide⟩
theorem test_device_faults : step deviceBuffer = .fault .sideEffectBuffer := by rfl

/-- The invariant holds of an idle machine and of a running one. -/
theorem test_inv_idle : MachineInv (idle 1 1 [⟨10#8, 20#8, 30#8, 40#8⟩]) :=
  ⟨by decide, by decide, by decide, by decide, by decide, by decide, by decide, fun _ h => by cases h⟩
theorem test_inv_one : MachineInv (one 0#32) :=
  ⟨by decide, by decide, by decide, by decide, by decide, by decide, by decide, fun _ h => by cases h; exact ⟨by decide, by decide, rfl⟩⟩

/-- CompletionWritesOnlyTheOutputRange: an input byte and a byte past the output. -/
theorem test_witness_writesOnly : ∃ t L, MachineInv (one 0#32) ∧ (one 0#32).turn = .unit ∧ (one 0#32).busy = true ∧
    (one 0#32).lat = some L ∧ exec (.copy 0#4 0#24) (one 0#32) = .next t ∧ t.done = true ∧
    inInput L 0x1003 = true ∧ inOutput L 0x2004 = false :=
  ⟨_, _, test_inv_one, rfl, rfl, rfl, rfl, rfl, rfl, rfl⟩

/-- RunningCommandReadsOnlyTheLatch: the live matrix of the second state is another one. -/
theorem test_witness_onlyTheLatch : ∃ t, let s := one 0x31#32
    let s' := { one 0x31#32 with cmCoef := matrix13 }
    s.turn = .unit ∧ s'.turn = .unit ∧ s.busy = true ∧ s'.busy = true ∧ s.lat = s'.lat ∧ s.lat.isSome = true ∧
    s.mem = s'.mem ∧ s.platform = s'.platform ∧ s.draws = s'.draws ∧ s.cmCoef ≠ s'.cmCoef ∧
    exec (.cmUser 0#24) s = .next t :=
  ⟨_, rfl, rfl, rfl, rfl, rfl, rfl, rfl, rfl, rfl, by decide, rfl⟩

/-- OutputDependsOnlyOnTheInputRange: other memory outside the input range. -/
theorem test_witness_outputDepends : let s := one 0#32
    let s' := { one 0#32 with mem := (one 0#32).mem.write 0x1004 1#8 }
    ReadyToComplete s (oneLatch 0#32) ∧ ReadyToComplete s' (oneLatch 0#32) ∧ s.mem.wf = true ∧ s'.mem.wf = true ∧
    s.mem ≠ s'.mem ∧ ∀ a, inInput (oneLatch 0#32) a = true →
      unitByte s (oneLatch 0#32) a = unitByte s' (oneLatch 0#32) a := by
  refine ⟨(test_ready _).1, ⟨rfl, rfl, rfl, by decide, by decide⟩, by decide, by decide, by decide, fun a ha => ?_⟩
  have h : a < 0x1004 := (of_decide_eq_true ha).2
  have h0 : 0x1000 ≤ a := (of_decide_eq_true ha).1
  obtain rfl | rfl | rfl | rfl : a = 0x1000 ∨ a = 0x1001 ∨ a = 0x1002 ∨ a = 0x1003 := by omega
  all_goals decide

/-- IssueThenComplete. -/
theorem test_witness_issueThenComplete : let i := Instr.cmUser 0#24
    let s := { idle 1 1 [⟨10#8, 20#8, 30#8, 40#8⟩] with
      prog := [asmWr State.reset.platform .cmd (encode i)], sched := [.hostMove, .unitMove] }
    i.WellFormed ∧ MachineInv s ∧ s.busy = false ∧ s.prog = asmWr s.platform .cmd (encode i) :: [] ∧
    s.sched = .hostMove :: .unitMove :: [] ∧ checkLatch (takeLatch (encode i) s) = none ∧
    allAdmitted s (takeLatch (encode i) s) = true ∧ touchesDevice s (takeLatch (encode i) s) = false :=
  ⟨by decide, ⟨by decide, by decide, by decide, by decide, by decide, by decide, by decide, fun _ h => by cases h⟩, rfl, rfl, rfl,
    by decide, by decide, by decide⟩

/-- EveryStepKeepsTheInvariant: a completion. -/
theorem test_witness_invariant : ∃ t, MachineInv (one 0#32) ∧ step (one 0#32) = .next t := ⟨_, test_inv_one, rfl⟩

/-- OnlyTheLifecycleSetsDoneAndErr: DONE by a completion, ERR by a completion, ERR by a CMD write. -/
theorem test_witness_lifecycle :
    (∃ t, step (one 0#32) = .next t ∧ (one 0#32).done = false ∧ t.done = true) ∧
    (∃ t, step shortMemory = .next t ∧ shortMemory.err = false ∧ t.err = true) ∧
    (∃ t, step (State.reset.withFetchWord 32 0x11) = .next t ∧ (State.reset.withFetchWord 32 0x11).err = false ∧ t.err = true) :=
  ⟨⟨_, rfl, rfl, rfl⟩, ⟨_, rfl, rfl, rfl⟩, ⟨_, rfl, rfl, rfl⟩⟩

/-- OverrunIsSetAndClearedOnlyAsStated: set by a CMD write; cleared by STATUS, by a soft reset, by the reset input. -/
theorem test_witness_overrun :
    (∃ t, step ((one 0#32).withFetchWord 32 0x21) = .next t ∧ ((one 0#32).withFetchWord 32 0x21).ovr = false ∧ t.ovr = true) ∧
    (∃ s t, s = hostDoes { one 0#32 with ovr := true } (asmWr State.reset.platform .status 8#32) ∧ step s = .next t ∧
      s.ovr = true ∧ t.ovr = false) ∧
    (∃ s t, s = hostDoes { one 0#32 with ovr := true } (asmWr State.reset.platform .ctrl 2#32) ∧ step s = .next t ∧
      s.ovr = true ∧ t.ovr = false) ∧
    (∃ s t, s = { one 0#32 with ovr := true, sched := [.resetInput] } ∧ step s = .next t ∧ s.ovr = true ∧ t.ovr = false) :=
  ⟨⟨_, rfl, rfl, rfl⟩, ⟨_, _, rfl, rfl, rfl, rfl⟩, ⟨_, _, rfl, rfl, rfl, rfl⟩, ⟨_, _, rfl, rfl, rfl, rfl⟩⟩

/-- BuffersAreStableWhileBusy: the host stores next to the input range; a byte of each range. -/
theorem test_witness_stable : ∃ s t, s = hostDoes (one 0#32) (asmMemWr32 0x1004#32 1#32) ∧ s.busy = true ∧
    s.lat = some (oneLatch 0#32) ∧ inInput (oneLatch 0#32) 0x1003 = true ∧ inOutput (oneLatch 0#32) 0x2000 = true ∧
    step s = .next t ∧ t.busy = true :=
  ⟨_, _, rfl, rfl, rfl, rfl, rfl, rfl, rfl⟩

/-- HostStoreToBusyBufferFaults: a word that touches only the first input byte, and one that touches only the last output byte. -/
theorem test_witness_storeFault : (one 0#32).busy = true ∧ (one 0#32).lat = some (oneLatch 0#32) ∧
    ((0xFFD#32).toNat + sizeBytes .word ≤ 2 ^ 32 ∧ (∀ j < 4, isDevice (one 0#32).platform (0xFFD + j) = false) ∧
      3 < sizeBytes .word ∧ inInput (oneLatch 0#32) (0xFFD + 3) = true ∧ inInput (oneLatch 0#32) (0xFFD + 2) = false) ∧
    ((0x2003#32).toNat + sizeBytes .word ≤ 2 ^ 32 ∧ (∀ j < 4, isDevice (one 0#32).platform (0x2003 + j) = false) ∧
      0 < sizeBytes .word ∧ inOutput (oneLatch 0#32) (0x2003 + 0) = true ∧ inOutput (oneLatch 0#32) (0x2003 + 1) = false) := by
  decide

/-- HostLoadWhileBusy: a word half inside the output range. -/
theorem test_witness_load : (one 0#32).busy = true ∧ (one 0#32).lat = some (oneLatch 0#32) ∧
    (0x1FFE#32).toNat + 4 ≤ 2 ^ 32 ∧ (∀ j < 4, isDevice (one 0#32).platform ((0x1FFE#32).toNat + j) = false) ∧
    inOutput (oneLatch 0#32) (0x1FFE + 1) = false ∧ inOutput (oneLatch 0#32) (0x1FFE + 2) = true := by decide

/-- HostStoreIsSeenAfterTheFence: the last word of the space. -/
theorem test_witness_store : State.reset.mem.wf = true ∧ State.reset.busy = false ∧ (0xFFFFFFFC#32).toNat + 4 ≤ 2 ^ 32 ∧
    ∀ j < 4, isDevice State.reset.platform ((0xFFFFFFFC#32).toNat + j) = false := by decide

/-- A host store of 0xAA over an input byte, unseen when the command of `one` was accepted, and one of 0xBB over the last output
byte. -/
def noted : State :=
  { one 0#32 with
    lat := some { oneLatch 0#32 with unseen := [⟨0x1000, 0xAA#8, 10#8⟩] }
    unseen := [⟨0x1000, 0xAA#8, 10#8⟩, ⟨0x2003, 0#8, 0xBB#8⟩] }

/-- FenceWhileBusyServesTheNextCommand: a note in the input range alone, for the fence; a note in each range, for the
completion, which takes the older output byte away (log 9), and for the fence that faults. -/
theorem test_witness_fenceWhileBusy : (∃ L, let s := { noted with unseen := [⟨0x1000, 0xAA#8, 10#8⟩] }
      s.busy = true ∧ s.lat = some L ∧ ∀ n ∈ s.unseen, inOutput L n.addr = false) ∧
    (∃ L n, noted.busy = true ∧ noted.lat = some L ∧ n ∈ noted.unseen ∧ inOutput L n.addr = true) ∧
    (∃ L t, ReadyToComplete noted L ∧ exec (.copy 0#4 0#24) noted = .next t ∧
      t.unseen = [⟨0x1000, 0xAA#8, 10#8⟩, ⟨0x2003, 0xBB#8, 0xBB#8⟩]) :=
  ⟨⟨_, rfl, rfl, by decide⟩, ⟨_, ⟨0x2003, 0#8, 0xBB#8⟩, rfl, rfl, by decide, by decide⟩,
    ⟨_, _, ⟨rfl, rfl, rfl, by decide, by decide⟩, rfl, by decide⟩⟩

/-- FenceWhileBusyServesTheNextCommand: after that fence the command completes and a next one is accepted. -/
theorem test_witness_fenceThenNext : ∃ u u' L',
    exec (.copy 0#4 0#24) { noted with unseen := [], turn := .unit } = .next u ∧
    exec (.cmGray 0#24) { u with turn := .host } = .next u' ∧ u'.lat = some L' := ⟨_, _, _, rfl, rfl, rfl⟩

/-- FenceWhileBusyServesTheNextCommand: a store that makes the first notes, and a command accepted while there is none. -/
theorem test_witness_firstNote : State.reset.unseen = [] ∧
    (∃ t, step (hostDoes State.reset (asmMemWr32 0xFFFFFFFC#32 5#32)) = .next t ∧ t.unseen ≠ []) ∧
    (∃ u t L, exec (.copy 0#4 0#24) { noted with unseen := [], turn := .unit } = .next u ∧ u.unseen = [] ∧ u.busy = false ∧
      exec (.blur 0#4 0#24) { u with turn := .host } = .next t ∧ t.lat = some L) :=
  ⟨rfl, ⟨_, rfl, by decide⟩, ⟨_, _, _, rfl, rfl, rfl, rfl, rfl⟩⟩

/-- A fence while busy empties the list and keeps the running command's latch. -/
theorem test_fence_while_busy :
    (after State.reset (step (hostDoes { noted with unseen := [⟨0x1000, 0xAA#8, 10#8⟩] } .fence))).unseen = [] ∧
    (after State.reset (step (hostDoes { noted with unseen := [⟨0x1000, 0xAA#8, 10#8⟩] } .fence))).lat = noted.lat := by decide

/-- RoundingAndClamping, ClampAndRoundingCommute: a divisor of each sign. -/
theorem test_witness_rounding : (0 : Int) < 65536 ∧ (-9 : Int) < 0 := by decide

/-- UniformImageIsUnchangedByFir: a kernel of nonzero sum. -/
theorem test_witness_uniform : kernelSum blur3Kernel ≠ 0 := by decide

/-- BlurStaysInTheInputRange: a 2x1 image between 0 and 255, every colour channel. -/
theorem test_witness_blurRange : 0 < 16 ∧ (0 : Fin 4) ≠ 3 ∧ (2 : Fin 4) ≠ 3 ∧
    ∀ x < (buildImage 2 1 fun x _ => g (BitVec.ofNat 8 (255 * x))).width,
    ∀ y < (buildImage 2 1 fun x _ => g (BitVec.ofNat 8 (255 * x))).height,
      0 ≤ channel (pixelAt (buildImage 2 1 fun x _ => g (BitVec.ofNat 8 (255 * x))) x y) 0 ∧
      channel (pixelAt (buildImage 2 1 fun x _ => g (BitVec.ofNat 8 (255 * x))) x y) 0 ≤ 255 := by decide

/-- BlurWeightLaws: the outermost taps and the centre of n = 16. -/
theorem test_witness_weights : (∀ i ∈ [(-16 : Int), 0, 16], -((16 : Nat) : Int) ≤ i ∧ i ≤ (16 : Nat)) ∧
    (∀ i ∈ [(0 : Int), 15], 0 ≤ i ∧ i < (16 : Nat)) := by decide

/-- HalfWidthOfRadius: both ends of the first and of the last interval, the saturated radii, and two radii in order. -/
theorem test_witness_halfWidth :
    (0 < 16 ∧ ((0 : Nat) : Int) * 65536 < 1 ∧ (1 : Int) ≤ (((0 : Nat) : Int) + 1) * 65536 ∧
      ((0 : Nat) : Int) * 65536 < 65536 ∧ (65536 : Int) ≤ (((0 : Nat) : Int) + 1) * 65536) ∧
    (15 < 16 ∧ ((15 : Nat) : Int) * 65536 < 983041 ∧ (1048576 : Int) ≤ (((15 : Nat) : Int) + 1) * 65536) ∧
    ((15 : Int) * 65536 < 983041 ∧ (15 : Int) * 65536 < 0x7FFFFFFF) ∧ (-1 : Int) ≤ 1 ∧
    halfWidth 65536 = 1 ∧ halfWidth 65537 = 2 ∧ halfWidth 983041 = 16 := by decide

/-- AccumulatorBounds: the largest half-width. -/
theorem test_witness_accumulators : 16 ≤ 16 := by decide

/-- The reset state's memory has the canonical form. -/
theorem test_reset_memory : State.reset.mem.wf = true := by decide

/-- A register access outside the window, and a host access past the last byte, stop by name. -/
theorem test_refusals :
    step (hostDoes State.reset (.regRead 0x1000 .word)) = .refused .outsideWindow ∧
    step (hostDoes State.reset (.regWrite 0x00C .byte 0#32)) = .refused .registerAccess ∧
    step (hostDoes State.reset (.memWrite 0xFFFFFFFD#32 .word 0#32)) = .fault .beyondAddressSpace := ⟨rfl, rfl, rfl⟩

end Sys2Proof.Tests
end

section
/-! PROOFS. The arithmetic helpers of 00_scope.md: what rounding, clamping and the ceiling are (R11), and that clamping and
rounding commute (R12). -/

namespace Sys2Proof.Machine

/-! ### Rounding, clamping and the ceiling -/

/-- Rounding by a positive divisor is the greatest integer not above n/d + 1/2 (00_scope.md R11). -/
theorem rdiv_eq_iff {d : Int} (hd : 0 < d) (n q : Int) :
    rdiv n d = q ↔ 2 * d * q ≤ 2 * n + d ∧ 2 * n + d < 2 * d * (q + 1) := by
  have h2 : 0 < 2 * d := by omega
  rw [rdiv, floordiv, if_pos hd, Int.ediv_eq_iff_of_pos h2, mul_comm q, mul_add_one]

/-- A negative divisor moves its sign to the numerator. -/
theorem rdiv_of_neg {d : Int} (hd : d < 0) (n : Int) : rdiv n d = rdiv (-n) (-d) := by
  have hpos : 0 < -d := by omega
  rw [rdiv, rdiv, if_neg hd.not_gt, if_pos hpos]

/-- Clamping replaces a value outside [0, 255] by the nearer end. -/
theorem clamp8_eq_ite (v : Int) : clamp8 v = if v < 0 then 0 else if 255 < v then 255 else v := by
  rw [clamp8]
  split_ifs <;> omega

/-- `ceil16 r` is the least integer whose Q16.16 value is at least `r`. -/
theorem ceil16_bounds (r : Int) : 65536 * ceil16 r ≥ r ∧ 65536 * ceil16 r < r + 65536 := by
  rw [ceil16, floordiv]
  omega

/-! ### The order of clamp and rounding -/

/-- Rounding by a positive divisor keeps the order of the numerators. -/
theorem monotone_rdiv {d : Int} (hd : 0 < d) : Monotone (rdiv · d) := by
  intro m n hmn
  simp only [rdiv, floordiv, if_pos hd]
  exact Int.ediv_le_ediv (by omega) (by omega)

/-- Rounding is monotone, so it passes through the clamp's `min` and `max`, and it is exact at both ends of the range. -/
theorem clamp8_rdiv {d : Int} (hd : 0 < d) (n : Int) : clamp8 (rdiv n d) = rdiv (min (max n 0) (255 * d)) d := by
  have hzero : rdiv 0 d = 0 := by simpa using rdiv_mul_self hd.ne' 0
  have htop : rdiv (255 * d) d = 255 := by rw [mul_comm, rdiv_mul_self hd.ne']
  calc clamp8 (rdiv n d)
      = min (max (rdiv n d) (rdiv 0 d)) (rdiv (255 * d) d) := by rw [clamp8, hzero, htop]
    _ = min (rdiv (max n 0) d) (rdiv (255 * d) d) := by rw [(monotone_rdiv hd).map_max]
    _ = rdiv (min (max n 0) (255 * d)) d := ((monotone_rdiv hd).map_min).symm

/-! ### The obligations -/

/-- Settles O50: one law for each helper, with the byte of a channel from the laws of the engines. -/
theorem roundingAndClamping : Obligations.RoundingAndClamping :=
  ⟨fun n _ hd => (rdiv_eq_iff hd n _).mp rfl, fun n _ hd => rdiv_of_neg hd n, clamp8_eq_ite, chan_toNat, ceil16_bounds⟩

/-- Settles O51: rounding is monotone and exact at both ends of the clamp's range. -/
theorem clampAndRoundingCommute : Obligations.ClampAndRoundingCommute :=
  fun n _ hd => clamp8_rdiv hd n

end Sys2Proof.Machine
end

section
/-! PROOFS. The registers of 10_state.md: the bits each keeps of a write and what it reads afterwards (R22 to R39), the layout of
STATUS and the interrupt line (R24, R41), and the values after reset (R44). -/

namespace Sys2Proof.Machine

open Sys2Proof.Safety

/-! ### Bits of a word -/

/-- The high bits of a value with zeros below them are the value under a mask. -/
theorem highBits_append_zero {n m : Nat} (v : BitVec (n + m)) :
    v.extractLsb' m n ++ 0#m = v &&& (BitVec.allOnes n ++ 0#m) := by
  conv_rhs => rw [← BitVec.extractLsb'_append_extractLsb' (x := v)]
  rw [BitVec.and_append, BitVec.and_allOnes, BitVec.and_zero]

/-- The low bits of a value with zeros above them are the value under a mask. -/
theorem zero_append_lowBits {n m : Nat} (v : BitVec (n + m)) :
    0#n ++ v.extractLsb' 0 m = v &&& (0#n ++ BitVec.allOnes m) := by
  conv_rhs => rw [← BitVec.extractLsb'_append_extractLsb' (x := v)]
  rw [BitVec.and_append, BitVec.and_allOnes, BitVec.and_zero]

/-- A base register reads bits [31:2] of the value written (10_state.md R30, R31). -/
theorem baseBits_append_zero (v : Word) : baseBits v ++ 0#2 = v &&& 0xFFFFFFFC#32 :=
  highBits_append_zero (n := 30) (m := 2) v

/-- A dimension register reads bits [15:0] of the value written (10_state.md R32, R33). -/
theorem zero_append_dimBits (v : Word) : 0#16 ++ dimBits v = v &&& 0x0000FFFF#32 :=
  zero_append_lowBits (n := 16) (m := 16) v

/-- A one-bit register reads bit 0 of the value written (10_state.md R23, R36). -/
theorem zero_append_bit0 (v : Word) : 0#31 ++ BitVec.ofBool (v.getLsbD 0) = v &&& 0x00000001#32 := by
  have hbit : BitVec.ofBool (v.getLsbD 0) = v.extractLsb' 0 1 := by
    ext i hi
    obtain rfl : i = 0 := by omega
    simp
  rw [hbit]
  exact zero_append_lowBits (n := 31) (m := 1) v

/-- An entry of a written vector, by its index. -/
theorem getElem_set_fin {n : Nat} (xs : Vector Word n) (j k : Fin n) (v : Word) :
    (xs.set j.val v)[k.val] = if k = j then v else xs[k.val] := by
  rw [Vector.getElem_set]
  simp only [Fin.ext_iff, eq_comm]

/-! ### Reads and writes by offset -/

/-- An aligned 32-bit access inside the window reaches the register of its offset (20_memory.md R76). -/
theorem accessedReg_of_aligned (p : Platform) {off : Nat} (hlt : off < Config.windowSize) (ha : off % 4 = 0) :
    accessedReg p (p.cmuBase + off) .word = .ok (regAt off) := by
  simp only [accessedReg, windowOffset_add p hlt, ha, and_self, if_true]

/-- A register write by offset, CMD apart. -/
theorem step_hostDoes_regWrite (s : State) {off : Nat} (v : Word) (hlt : off < Config.windowSize) (ha : off % 4 = 0)
    (hr : regAt off ≠ .cmd) : step (hostDoes s (.regWrite (s.platform.cmuBase + off) .word v)) =
      .next (writeReg (regAt off) v { s with turn := .host }) := by
  rw [step_hostDoes]
  simp only [hostStatement, hostRegWrite, accessedReg_of_aligned s.platform hlt ha]

/-- A register read by offset. -/
theorem step_hostDoes_regRead (s : State) {off : Nat} (hlt : off < Config.windowSize) (ha : off % 4 = 0) :
    step (hostDoes s (.regRead (s.platform.cmuBase + off) .word)) =
      .next { s with turn := .host, rdata := readReg (regAt off) { s with turn := .host } } := by
  rw [step_hostDoes]
  simp only [hostStatement, hostRegRead, accessedReg_of_aligned s.platform hlt ha]

/-- The reserved offsets of the register map (10_state.md R39). -/
theorem regAt_of_reserved {off : Nat}
    (h : 0x02C ≤ off ∧ off ≤ 0x03C ∨ 0x090 ≤ off ∧ off ≤ 0x09C ∨ 0x0C4 ≤ off ∧ off ≤ 0xFFC) : regAt off = .reserved := by
  unfold regAt
  split
  case h_12 => rw [dif_neg (by omega), dif_neg (by omega)]
  all_goals omega

/-! ### STATUS and the interrupt line -/

/-- A flag that a 1 in `c` clears. -/
theorem and_not_eq_ite (b c : Bool) : (b && !c) = if c then false else b := by
  cases c <;> simp

/-- The flags of STATUS are its bits 3 to 0 (10_state.md R24). -/
theorem statusWord_flags (s : State) : (statusWord s).getLsbD 0 = s.busy ∧ (statusWord s).getLsbD 1 = s.done ∧
    (statusWord s).getLsbD 2 = s.err ∧ (statusWord s).getLsbD 3 = s.ovr := by
  refine ⟨?_, ?_, ?_, ?_⟩ <;>
  · rw [statusWord]
    repeat rw [BitVec.getLsbD_append]
    simp

/-- The fields of STATUS above its flags (10_state.md R24). -/
theorem statusWord_fields (s : State) : (statusWord s).extractLsb' 8 4 = s.errcode ∧
    (statusWord s).extractLsb' 4 4 = 0#4 ∧ (statusWord s).extractLsb' 12 20 = 0#20 := by
  refine ⟨?_, ?_, ?_⟩ <;> rw [statusWord]
  · iterate 5 rw [BitVec.extractLsb'_append_eq_of_le (by decide)]
    exact BitVec.extractLsb'_append_eq_right
  · iterate 4 rw [BitVec.extractLsb'_append_eq_of_le (by decide)]
    exact BitVec.extractLsb'_append_eq_right
  · iterate 6 rw [BitVec.extractLsb'_append_eq_of_le (by decide)]
    exact BitVec.extractLsb'_eq_self

/-- IRQ_EN is bit 0 of CTRL (10_state.md R23). -/
theorem ctrlWord_irqEn (s : State) : (ctrlWord s).getLsbD 0 = s.ctrlIrqEn := by
  rw [ctrlWord, BitVec.getLsbD_append]
  simp

/-! ### Reset values -/

/-- The reset values of 10_state.md section 2 (R44). -/
theorem registersAtReset_reset : RegistersAtReset State.reset where
  id := rfl
  ctrl := rfl
  status := rfl
  cmd := rfl
  srcBase := rfl
  dstBase := rfl
  width := rfl
  height := rfl
  srcLen := rfl
  blurRadius := rfl
  firCfg := rfl
  cmCoef := by decide
  firCoef := by decide
  idle := ⟨rfl, rfl, rfl, rfl, rfl⟩
  latch := rfl
  interrupt := rfl

/-! ### The obligations -/

/-- Settles O17: the STATUS write is `writeStatus`, whose clears are one conjunction each. -/
theorem statusWriteOneToClear : Obligations.StatusWriteOneToClear := by
  intro s v
  refine ⟨_, step_hostDoes_wr s v (by decide), ?_, ?_, rfl, ?_, rfl⟩
  · exact and_not_eq_ite s.done (v.getLsbD 1)
  · exact and_not_eq_ite s.err (v.getLsbD 2)
  · exact and_not_eq_ite s.ovr (v.getLsbD 3)

/-- Settles O18: the concatenation that STATUS reads as, field by field. -/
theorem statusLayout : Obligations.StatusLayout := by
  intro s
  obtain ⟨hbusy, hdone, herr, hovr⟩ := statusWord_flags s
  exact ⟨hbusy, hdone, herr, hovr, statusWord_fields s⟩

/-- Settles O21: the readable bits are the fields the line is computed from. -/
theorem interruptLine : Obligations.InterruptLine := by
  intro s
  obtain ⟨-, hdone, herr, -⟩ := statusWord_flags s
  simp only [readReg, ctrlWord_irqEn, hdone, herr, irq, Bool.and_eq_true, Bool.or_eq_true]

/-- Settles O11: the registers as above, and no byte of the reset memory is listed. -/
theorem powerOnState : Obligations.PowerOnState :=
  ⟨registersAtReset_reset, fun _ => rfl⟩

/-- Settles O12: a base register's write is a record update, and it reads the masked value. -/
theorem baseRegisterWrites : Obligations.BaseRegisterWrites :=
  fun s v => ⟨⟨_, step_hostDoes_wr s v (by decide), rfl, baseBits_append_zero v⟩,
    _, step_hostDoes_wr s v (by decide), rfl, baseBits_append_zero v⟩

/-- Settles O13: each write is a record update, and the register reads the masked value. -/
theorem configurationRegisterWrites : Obligations.ConfigurationRegisterWrites :=
  fun s v => ⟨⟨_, step_hostDoes_wr s v (by decide), rfl, zero_append_dimBits v⟩,
    ⟨_, step_hostDoes_wr s v (by decide), rfl, zero_append_dimBits v⟩,
    ⟨_, step_hostDoes_wr s v (by decide), rfl, rfl⟩,
    ⟨_, step_hostDoes_wr s v (by decide), rfl, rfl⟩,
    _, step_hostDoes_wr s v (by decide), rfl, zero_append_bit0 v⟩

/-- Settles O14: a coefficient write sets one entry of its vector. -/
theorem coefficientWrites : Obligations.CoefficientWrites :=
  ⟨fun s v j => ⟨_, step_hostDoes_wr s v (by simp), rfl, fun k => getElem_set_fin s.cmCoef j k v⟩,
    fun s v j => ⟨_, step_hostDoes_wr s v (by simp), rfl, fun k => getElem_set_fin s.firCoef j k v⟩⟩

/-- Settles O15: ID sits at offset 0, and the other offsets of the statement are reserved. -/
theorem idAndReservedIgnoreWrites : Obligations.IdAndReservedIgnoreWrites := by
  intro s v
  refine ⟨⟨?_, ?_⟩, fun off ha hrange => ?_⟩
  · exact step_hostDoes_regWrite s (off := 0) v (by decide) rfl (by decide)
  · exact step_hostDoes_regRead s (off := 0) (by decide) rfl
  · have hlt : off < Config.windowSize := by simp only [Config.windowSize]; omega
    have hreg := regAt_of_reserved hrange
    rw [step_hostDoes_regWrite s v hlt ha (by simp [hreg]), step_hostDoes_regRead s hlt ha, hreg]
    exact ⟨rfl, rfl⟩

/-- Settles O16: with bit 1 = 0 the CTRL write is the update of IRQ_EN. -/
theorem ctrlWriteSetsInterruptEnable : Obligations.CtrlWriteSetsInterruptEnable := by
  intro s v hv
  have hstep := step_hostDoes_wr s (r := .ctrl) v (by decide)
  rw [writeReg, writeCtrl, hv] at hstep
  exact ⟨_, hstep, rfl, zero_append_bit0 v⟩

end Sys2Proof.Machine
end

section
/-! PROOFS. What one step can do to the flags of STATUS, the latch and the memory, said once (`StepEffect`), and what follows:
the invariant of the machine (10_state.md R26, R27, R45), what sets DONE and ERR (R26, R27), what sets and clears OVR (R28). -/

namespace Sys2Proof.Machine

open Sys2Proof.Safety

/-! ### The word of a decoded command -/

theorem encode_decodeCm (sel : BitVec 4) (ign : BitVec 24) : encode (decodeCm sel ign) = commandWord 0x1#4 sel ign := by
  unfold decodeCm
  split_ifs <;> simp only [encode, *]

theorem encode_decodeFir (sel : BitVec 4) (ign : BitVec 24) : encode (decodeFir sel ign) = commandWord 0x2#4 sel ign := by
  unfold decodeFir
  split_ifs <;> simp only [encode, *]

/-- A decoded command's word is the word it was decoded from (30_encoding.md R106). -/
theorem encode_decode (w : Word) : encode (decode w) = w := by
  have hw := commandWord_fields w
  unfold decode
  split_ifs with h0 h1 h2 h3
  · rwa [h0] at hw
  · rwa [h1, ← encode_decodeCm] at hw
  · rwa [h2, ← encode_decodeFir] at hw
  · rwa [h3] at hw
  · exact hw
  · exact hw

/-! ### Memories within the address space -/

/-- A canonical memory with bytes at 0 .. 2^32 - 1 only (20_memory.md R70): the memory part of `MachineInv`. -/
def Memory.Valid (m : Memory) : Prop := m.wf = true ∧ ∀ c ∈ m, c.1 < 2 ^ 32

theorem valid_of_machineInv {s : State} (h : MachineInv s) : s.mem.Valid := ⟨h.memory, h.space⟩

theorem Memory.Valid.writeAll {m : Memory} {cells : List Host.Cell} (hm : m.Valid) (hc : ∀ c ∈ cells, c.1 < 2 ^ 32) :
    (m.writeAll cells).Valid :=
  ⟨wf_writeAll hm.1, fun c h => (mem_writeAll h).elim (hc c) (hm.2 c)⟩

theorem Memory.Valid.writePixels {m : Memory} {addr : Nat} {ps : List Pixel} (hm : m.Valid)
    (hlen : addr + 4 * ps.length ≤ 2 ^ 32) : (m.writePixels addr ps).Valid :=
  ⟨wf_writePixels hm.1, fun c h => (mem_writePixels h).elim (hm.2 c) fun hc => by omega⟩

/-- Only admitted bytes are scrambled, and no byte at 2^32 or above is admitted. -/
theorem valid_scrambleOutput {s : State} (L : Latch) (hm : s.mem.Valid) : (scrambleOutput s L).Valid := by
  refine hm.writeAll fun c hc => ?_
  obtain ⟨a, ha, rfl⟩ := List.mem_map.1 hc
  have hok := (List.mem_filter.1 ha).2
  rw [memOk, Bool.and_eq_true] at hok
  exact of_decide_eq_true hok.1

theorem valid_abandonedMemory {s : State} (hm : s.mem.Valid) : (abandonedMemory s).Valid := by
  unfold abandonedMemory
  split
  · exact valid_scrambleOutput _ hm
  · exact hm
  · exact hm

/-- The cells of a host store lie at the bytes it accesses. -/
theorem fst_lt_of_mem_storedCells {addr data : Word} {size : AccessSize} {c : Host.Cell}
    (hc : c ∈ storedCells addr size data) (hend : addr.toNat + sizeBytes size ≤ 2 ^ 32) : c.1 < 2 ^ 32 := by
  have := (mem_byteRange.1 (List.of_mem_zip (show (c.1, c.2) ∈ _ from hc)).1).2
  omega

/-! ### The fields of the life of a command -/

/-- STATUS, CMD's read-back, the latch and the platform are the same in both states. -/
structure SameLifecycle (s t : State) : Prop where
  busy : t.busy = s.busy
  done : t.done = s.done
  err : t.err = s.err
  ovr : t.ovr = s.ovr
  errcode : t.errcode = s.errcode
  lastCmd : t.lastCmd = s.lastCmd
  lat : t.lat = s.lat
  platform : t.platform = s.platform

theorem SameUnit.sameLifecycle {s t : State} (h : SameUnit s t) : SameLifecycle s t := by
  rw [h]
  exact ⟨rfl, rfl, rfl, rfl, rfl, rfl, rfl, rfl⟩

/-- Everything a register write can do, CMD apart: a soft reset, a STATUS write, or an update of a register that the life of a
command does not use. -/
theorem writeReg_cases (r : Reg) (v : Word) (s : State) :
    (r = .ctrl ∧ v.getLsbD 1 = true ∧ writeReg r v s = resetUnit s) ∨
    (r = .status ∧ writeReg r v s = writeStatus v s) ∨
    (SameLifecycle s (writeReg r v s) ∧ (writeReg r v s).mem = s.mem) := by
  cases r with
  | ctrl =>
    cases hv : v.getLsbD 1 with
    | true => exact .inl ⟨rfl, rfl, by simp only [writeReg, writeCtrl, hv, if_true]⟩
    | false =>
      have hset : writeReg .ctrl v s = { s with ctrlIrqEn := v.getLsbD 0 } := by
        simp only [writeReg, writeCtrl, hv, Bool.false_eq_true, if_false]
      rw [hset]
      exact .inr (.inr ⟨⟨rfl, rfl, rfl, rfl, rfl, rfl, rfl, rfl⟩, rfl⟩)
  | status => exact .inr (.inl ⟨rfl, rfl⟩)
  | _ => exact .inr (.inr ⟨⟨rfl, rfl, rfl, rfl, rfl, rfl, rfl, rfl⟩, rfl⟩)

/-! ### What one step can do -/

/-- `s` after its event and its host statement are taken off, on the turn of `a`: where the effect of a step starts. -/
def afterMove (s : State) (a : Agent) (ops : List HostOp) : State :=
  { s with sched := s.sched.tail, turn := a, prog := ops }

section AfterMove
variable (s : State) (a : Agent) (ops : List HostOp)

@[simp] theorem afterMove_busy : (afterMove s a ops).busy = s.busy := rfl
@[simp] theorem afterMove_done : (afterMove s a ops).done = s.done := rfl
@[simp] theorem afterMove_err : (afterMove s a ops).err = s.err := rfl
@[simp] theorem afterMove_ovr : (afterMove s a ops).ovr = s.ovr := rfl
@[simp] theorem afterMove_errcode : (afterMove s a ops).errcode = s.errcode := rfl
@[simp] theorem afterMove_lastCmd : (afterMove s a ops).lastCmd = s.lastCmd := rfl
@[simp] theorem afterMove_lat : (afterMove s a ops).lat = s.lat := rfl
@[simp] theorem afterMove_mem : (afterMove s a ops).mem = s.mem := rfl
@[simp] theorem afterMove_platform : (afterMove s a ops).platform = s.platform := rfl
@[simp] theorem afterMove_turn : (afterMove s a ops).turn = a := rfl
@[simp] theorem takeLatch_afterMove (w : Word) : takeLatch w (afterMove s a ops) = takeLatch w s := rfl

end AfterMove

/-- A change of other fields than the platform moves no buffer onto a device. -/
theorem touchesDevice_congr {s t : State} (L : Latch) (h : t.platform = s.platform) :
    touchesDevice t L = touchesDevice s L := by
  rw [touchesDevice, touchesDevice, h]

/-- Everything a step from `s` to `t` can do to STATUS, CMD's read-back, the latch and the memory, each with its cause. -/
inductive StepEffect (s t : State) : Prop
  /-- The reset input (70_reset_and_hazards.md R240). -/
  | hardReset (rest : List Event) (hsched : s.sched = .resetInput :: rest) (a : Agent) (ops : List HostOp)
    (ht : t = resetUnit (afterMove s a ops))
  /-- A CTRL write with bit 1 = 1 (R242). -/
  | softReset (v : Word) (ops : List HostOp) (hprog : s.prog = asmWr s.platform .ctrl v :: ops) (hv : v.getLsbD 1 = true)
    (ht : t = resetUnit (afterMove s .host ops))
  /-- The completion with DONE (40_command.md R134). -/
  | finish (L : Latch) (out : Image) (hbusy : s.busy = true) (hlat : s.lat = some L)
    (hlen : out.pixels.length = latW L * latH L) (ops : List HostOp) (ht : t = finishCommand L out (afterMove s .unit ops))
  /-- The completion with BUS_ERROR (40_command.md R134). -/
  | busError (L : Latch) (hbusy : s.busy = true) (hlat : s.lat = some L) (ops : List HostOp)
    (ht : t = busErrorCommand L (afterMove s .unit ops))
  /-- A CMD write dropped while BUSY = 1 (40_command.md R133). -/
  | drop (w : Word) (ops : List HostOp) (hprog : s.prog = asmWr s.platform .cmd w :: ops) (hbusy : s.busy = true)
    (ht : t = { afterMove s .host ops with ovr := true })
  /-- A CMD write accepted while BUSY = 0 (40_command.md R130). -/
  | accept (w : Word) (ops : List HostOp) (hprog : s.prog = asmWr s.platform .cmd w :: ops) (hbusy : s.busy = false)
    (hcheck : checkLatch (takeLatch w s) = none) (hdevice : touchesDevice s (takeLatch w s) = false)
    (ht : t = { afterMove s .host ops with
      lastCmd := w, done := false, err := false, errcode := 0#4, busy := true, lat := some (takeLatch w s) })
  /-- A CMD write refused by the checks while BUSY = 0 (40_command.md R132). -/
  | refuse (w : Word) (ops : List HostOp) (hprog : s.prog = asmWr s.platform .cmd w :: ops) (hbusy : s.busy = false)
    (e : ErrorCode) (hcheck : checkLatch (takeLatch w s) = some e) (ht : t = { afterMove s .host ops with
      lastCmd := w, done := false, err := true, errcode := errorCode e, busy := false, lat := none })
  /-- A STATUS write (10_state.md R25). -/
  | clear (v : Word) (ops : List HostOp) (hprog : s.prog = asmWr s.platform .status v :: ops)
    (ht : t = writeStatus v (afterMove s .host ops))
  /-- Any other move: bytes of the host's store are written, if anything is. -/
  | quiet (hsame : SameLifecycle s t) (cells : List Host.Cell) (hcells : ∀ c ∈ cells, c.1 < 2 ^ 32)
    (hmem : t.mem = s.mem.writeAll cells)

/-- A quiet move that leaves the memory as it is. -/
theorem StepEffect.of_mem_eq {s t : State} (hsame : SameLifecycle s t) (hmem : t.mem = s.mem) : StepEffect s t :=
  .quiet hsame [] (by simp) hmem

/-- Relating the state a move starts from to the state before the step. -/
theorem SameLifecycle.of_afterMove {s t : State} {a : Agent} {ops : List HostOp} (h : SameLifecycle (afterMove s a ops) t) :
    SameLifecycle s t :=
  ⟨h.busy, h.done, h.err, h.ovr, h.errcode, h.lastCmd, h.lat, h.platform⟩

/-- The effect of a CMD write. -/
theorem stepEffect_issue {s t : State} {w : Word} {ops : List HostOp} (hprog : s.prog = asmWr s.platform .cmd w :: ops)
    (h : issueCommand w (afterMove s .host ops) = .next t) : StepEffect s t := by
  rcases issueCommand_cases w (afterMove s .host ops) with
    ⟨hb, he⟩ | ⟨hb, hc, hd, he⟩ | ⟨hb, e, hc, -, he⟩ | ⟨-, -, -, he⟩ <;> rw [h] at he
  · cases he; exact .drop w ops hprog hb rfl
  · cases he; exact .accept w ops hprog hb hc hd rfl
  · cases he; exact .refuse w ops hprog hb e hc rfl
  · cases he

/-- The effect of a write to another register. -/
theorem stepEffect_writeReg {s : State} {r : Reg} {v : Word} {off : Nat} {ops : List HostOp} (hreg : regAt off = r)
    (hprog : s.prog = .regWrite (s.platform.cmuBase + off) .word v :: ops) :
    StepEffect s (writeReg r v (afterMove s .host ops)) := by
  rcases writeReg_cases r v (afterMove s .host ops) with ⟨rfl, hv, ht⟩ | ⟨rfl, ht⟩ | ⟨hsame, hmem⟩
  · rw [eq_offset_of_regAt hreg (by simp)] at hprog
    exact .softReset v ops hprog hv ht
  · rw [eq_offset_of_regAt hreg (by simp)] at hprog
    exact .clear v ops hprog ht
  · exact .of_mem_eq hsame.of_afterMove hmem

/-- The effect of a host statement. -/
theorem stepEffect_host {s t : State} {op : HostOp} {ops : List HostOp} (hprog : s.prog = op :: ops)
    (h : hostStatement (fun w s => exec (decode w) s) op (afterMove s .host ops) = .next t) : StepEffect s t := by
  rcases hostStatement_cases h with
    ⟨w, rfl, hrun⟩ | ⟨r, v, off, rfl, hreg, -, rfl⟩ | ⟨hunit, hmem, -⟩ | ⟨addr, size, data, -, hend, -, rfl⟩ | ⟨-, rfl⟩
  · rw [exec_host rfl, encode_decode] at hrun
    exact stepEffect_issue hprog hrun
  · exact stepEffect_writeReg hreg hprog
  · exact .of_mem_eq hunit.sameLifecycle.of_afterMove hmem
  · exact .quiet ⟨rfl, rfl, rfl, rfl, rfl, rfl, rfl, rfl⟩ _ (fun c hc => fst_lt_of_mem_storedCells hc hend) rfl
  · exact .of_mem_eq ⟨rfl, rfl, rfl, rfl, rfl, rfl, rfl, rfl⟩ rfl

/-- The effect of the completion. -/
theorem stepEffect_unit {s t : State} {L : Latch} {i : Instr} (hbusy : s.busy = true) (hlat : s.lat = some L)
    (h : exec i (afterMove s .unit s.prog) = .next t) : StepEffect s t := by
  obtain ⟨-, ⟨-, out, ht, hlen⟩ | ⟨-, ht⟩⟩ := exec_unit_cases (s := afterMove s .unit s.prog) rfl hbusy hlat h
  · exact .finish L out hbusy hlat hlen s.prog ht
  · exact .busError L hbusy hlat s.prog ht

/-- Every step has one of the effects. -/
theorem stepEffect_of_step {s t : State} (h : step s = .next t) : StepEffect s t := by
  rcases step_cases h with ⟨rest, hs, ht⟩ | ⟨L, hb, hl, he⟩ | ⟨a, rfl⟩ | ⟨op, ops, hp, he⟩
  · refine .hardReset rest hs s.turn s.prog ?_
    rw [ht, afterMove, hs, List.tail_cons]
  · exact stepEffect_unit hb hl he
  · exact .of_mem_eq ⟨rfl, rfl, rfl, rfl, rfl, rfl, rfl, rfl⟩ rfl
  · exact stepEffect_host hp he

/-! ### The invariant -/

/-- In an idle state without a latch only the memory and the outcome of the latest command are left to check. -/
theorem machineInv_of_idle {s : State} (hmem : s.mem.Valid) (hbusy : s.busy = false) (hlat : s.lat = none)
    (houtcome : ¬ (s.done = true ∧ s.err = true)) (hcode : s.errcode ≠ 0#4 ↔ s.err = true)
    (hreported : s.errcode.toNat ≤ 4) : MachineInv s where
  memory := hmem.1
  space := hmem.2
  latch := by simp [hbusy, hlat]
  running := by simp [hbusy]
  outcome := houtcome
  code := hcode
  reported := hreported
  accepted := by simp [hlat]

/-- The flags after an error: every reported code is nonzero and at most 4 (60_exceptions.md R210). -/
theorem errorCode_ne_zero (e : ErrorCode) : errorCode e ≠ 0#4 ∧ (errorCode e).toNat ≤ 4 := by
  cases e <;> decide

/-- A refused or failed command leaves an idle machine with one outcome (60_exceptions.md R219). -/
theorem machineInv_of_error {s : State} (e : ErrorCode) (hmem : s.mem.Valid) (hbusy : s.busy = false) (hlat : s.lat = none)
    (hdone : s.done = false) (herr : s.err = true) (hcode : s.errcode = errorCode e) : MachineInv s := by
  obtain ⟨hne, hle⟩ := errorCode_ne_zero e
  exact machineInv_of_idle hmem hbusy hlat (by simp [hdone]) (by simp [hcode, herr, hne]) (by rwa [hcode])

/-- A reset leaves an idle machine with no outcome, whatever the state before (70_reset_and_hazards.md R240). -/
theorem machineInv_resetUnit {s : State} (hmem : s.mem.Valid) : MachineInv (resetUnit s) :=
  machineInv_of_idle (valid_abandonedMemory hmem) rfl rfl (by simp [State.reset]) (by simp [State.reset])
    (by simp [State.reset])

/-- The output range of an accepted command ends within the address space (40_command.md R132). -/
theorem output_le_of_machineInv {s : State} {L : Latch} (h : MachineInv s) (hlat : s.lat = some L) :
    latDst L + 4 * (latW L * latH L) ≤ 2 ^ 32 := by
  obtain ⟨-, -, -, -, hdst, -⟩ := checkLatch_eq_none.1 (h.accepted L hlat).1
  exact hdst

/-- The completion with DONE: ERR and ERRCODE are 0 while BUSY = 1, and only DONE is set (10_state.md R27). -/
theorem machineInv_finishCommand {s : State} {L : Latch} {out : Image} (h : MachineInv s) (hbusy : s.busy = true)
    (hlat : s.lat = some L) (hlen : out.pixels.length = latW L * latH L) : MachineInv (finishCommand L out s) :=
  have hend : latDst L + 4 * out.pixels.length ≤ 2 ^ 32 := hlen ▸ output_le_of_machineInv h hlat
  machineInv_of_idle ((valid_of_machineInv h).writePixels hend) rfl rfl (by simp [(h.running hbusy).2]) h.code h.reported

/-- The completion with BUS_ERROR: DONE is 0 while BUSY = 1, and only ERR is set (10_state.md R27). -/
theorem machineInv_busErrorCommand {s : State} {L : Latch} (h : MachineInv s) (hbusy : s.busy = true) :
    MachineInv (busErrorCommand L s) :=
  machineInv_of_error .busError (valid_scrambleOutput L (valid_of_machineInv h)) rfl rfl (h.running hbusy).1 rfl rfl

/-- An acceptance clears both outcomes and latches what passed the checks (40_command.md R130). -/
theorem machineInv_accept {s : State} {w : Word} (h : MachineInv s) (hcheck : checkLatch (takeLatch w s) = none)
    (hdevice : touchesDevice s (takeLatch w s) = false) : MachineInv { s with
      lastCmd := w, done := false, err := false, errcode := 0#4, busy := true, lat := some (takeLatch w s) } where
  memory := h.memory
  space := h.space
  latch := by simp
  running := by simp
  outcome := by simp
  code := by simp
  reported := by simp
  accepted := by
    rintro L ⟨⟩
    exact ⟨hcheck, hdevice, rfl⟩

/-- A STATUS write clears ERR and ERRCODE together and sets no flag (10_state.md R25). -/
theorem machineInv_writeStatus {s : State} (v : Word) (h : MachineInv s) : MachineInv (writeStatus v s) where
  memory := h.memory
  space := h.space
  latch := h.latch
  running hb := by simp [h.running hb]
  outcome hboth := by
    simp only [writeStatus_done, writeStatus_err, Bool.and_eq_true] at hboth
    obtain ⟨⟨hdone, -⟩, herr, -⟩ := hboth
    exact h.outcome ⟨hdone, herr⟩
  code := by
    rw [writeStatus_errcode, writeStatus_err]
    cases v.getLsbD 2 with
    | false => simpa using h.code
    | true => simp
  reported := by
    rw [writeStatus_errcode]
    split
    · simp
    · exact h.reported
  accepted := h.accepted

/-- The invariant speaks of the memory and of the fields of `SameLifecycle` only. -/
theorem machineInv_of_sameLifecycle {s t : State} (h : MachineInv s) (hsame : SameLifecycle s t) (hmem : t.mem.Valid) :
    MachineInv t := by
  obtain ⟨hbusy, hdone, herr, -, hcode, hcmd, hlat, hplatform⟩ := hsame
  exact {
    memory := hmem.1
    space := hmem.2
    latch := by rw [hbusy, hlat]; exact h.latch
    running := by rw [hbusy, hdone, herr]; exact h.running
    outcome := by rw [hdone, herr]; exact h.outcome
    code := by rw [hcode, herr]; exact h.code
    reported := by rw [hcode]; exact h.reported
    accepted := fun L hL => by
      rw [touchesDevice_congr L hplatform, hcmd]
      exact h.accepted L (hlat ▸ hL) }

theorem machineInv_afterMove {s : State} (h : MachineInv s) (a : Agent) (ops : List HostOp) : MachineInv (afterMove s a ops) :=
  ⟨h.memory, h.space, h.latch, h.running, h.outcome, h.code, h.reported, h.accepted⟩

/-- OVR is no part of the invariant (10_state.md R28). -/
theorem machineInv_setOvr {s : State} (h : MachineInv s) : MachineInv { s with ovr := true } :=
  ⟨h.memory, h.space, h.latch, h.running, h.outcome, h.code, h.reported, h.accepted⟩

/-! ### Flags that a step leaves alone -/

theorem not_rise {b c : Bool} {P : Prop} (h : c = b) (hb : b = false) (hc : c = true) : P := by
  simp [h, hb] at hc

theorem not_fall {b c : Bool} {P : Prop} (h : c = b) (hb : b = true) (hc : c = false) : P := by
  simp [h, hb] at hc

/-! ### The obligations -/

/-- Settles O43: each effect of a step keeps the invariant. -/
theorem everyStepKeepsTheInvariant : Obligations.EveryStepKeepsTheInvariant := by
  intro s t hs hstep
  have hvalid := valid_of_machineInv hs
  cases stepEffect_of_step hstep with
  | hardReset rest hsched a ops ht => exact ht ▸ machineInv_resetUnit hvalid
  | softReset v ops hprog hv ht => exact ht ▸ machineInv_resetUnit hvalid
  | finish L out hbusy hlat hlen ops ht =>
    exact ht ▸ machineInv_finishCommand (machineInv_afterMove hs .unit ops) hbusy hlat hlen
  | busError L hbusy hlat ops ht => exact ht ▸ machineInv_busErrorCommand (machineInv_afterMove hs .unit ops) hbusy
  | drop w ops hprog hbusy ht => exact ht ▸ machineInv_setOvr (machineInv_afterMove hs .host ops)
  | accept w ops hprog hbusy hcheck hdevice ht =>
    exact ht ▸ machineInv_accept (machineInv_afterMove hs .host ops) hcheck hdevice
  | refuse w ops hprog hbusy e hcheck ht =>
    subst ht
    exact machineInv_of_error e hvalid rfl rfl rfl rfl rfl
  | clear v ops hprog ht => exact ht ▸ machineInv_writeStatus v (machineInv_afterMove hs .host ops)
  | quiet hsame cells hcells hmem => exact machineInv_of_sameLifecycle hs hsame (hmem ▸ hvalid.writeAll hcells)

/-- Settles O44: DONE rises in the completion alone, ERR in the completion and in a refused CMD write. -/
theorem onlyTheLifecycleSetsDoneAndErr : Obligations.OnlyTheLifecycleSetsDoneAndErr := by
  intro s t hstep
  cases stepEffect_of_step hstep with
  | hardReset rest hsched a ops ht =>
    subst ht
    exact ⟨nofun, nofun⟩
  | softReset v ops hprog hv ht =>
    subst ht
    exact ⟨nofun, nofun⟩
  | finish L out hbusy hlat hlen ops ht =>
    subst ht
    exact ⟨fun _ _ => ⟨hbusy, rfl, rfl⟩, fun _ _ => .inl ⟨hbusy, rfl, rfl⟩⟩
  | busError L hbusy hlat ops ht =>
    subst ht
    exact ⟨fun _ _ => ⟨hbusy, rfl, rfl⟩, fun _ _ => .inl ⟨hbusy, rfl, rfl⟩⟩
  | drop w ops hprog hbusy ht =>
    subst ht
    exact ⟨not_rise rfl, not_rise rfl⟩
  | accept w ops hprog hbusy hcheck hdevice ht =>
    subst ht
    exact ⟨nofun, nofun⟩
  | refuse w ops hprog hbusy e hcheck ht =>
    subst ht
    exact ⟨nofun, fun _ _ => .inr ⟨hbusy, rfl, w, ops, hprog, rfl⟩⟩
  | clear v ops hprog ht =>
    subst ht
    exact ⟨fun h h' => by simp [h] at h', fun h h' => by simp [h] at h'⟩
  | quiet hsame cells hcells hmem => exact ⟨not_rise hsame.done, not_rise hsame.err⟩

/-- Settles O45: only a dropped CMD write sets OVR, only a STATUS write and a reset clear it, and the line does not read it. -/
theorem overrunIsSetAndClearedOnlyAsStated : Obligations.OverrunIsSetAndClearedOnlyAsStated := by
  refine ⟨fun s t hstep => ?_, fun s => rfl⟩
  cases stepEffect_of_step hstep with
  | hardReset rest hsched a ops ht =>
    subst ht
    exact ⟨nofun, fun _ _ => .inl ⟨rest, hsched⟩⟩
  | softReset v ops hprog hv ht =>
    subst ht
    exact ⟨nofun, fun _ _ => .inr ⟨rfl, v, ops, .inr ⟨hprog, hv⟩⟩⟩
  | finish L out hbusy hlat hlen ops ht =>
    subst ht
    exact ⟨not_rise rfl, not_fall rfl⟩
  | busError L hbusy hlat ops ht =>
    subst ht
    exact ⟨not_rise rfl, not_fall rfl⟩
  | drop w ops hprog hbusy ht =>
    subst ht
    exact ⟨fun _ _ => ⟨hbusy, rfl, w, ops, hprog⟩, nofun⟩
  | accept w ops hprog hbusy hcheck hdevice ht =>
    subst ht
    exact ⟨not_rise rfl, not_fall rfl⟩
  | refuse w ops hprog hbusy e hcheck ht =>
    subst ht
    exact ⟨not_rise rfl, not_fall rfl⟩
  | clear v ops hprog ht =>
    subst ht
    refine ⟨fun h h' => by simp [h] at h', fun h h' => .inr ⟨rfl, v, ops, .inl ⟨hprog, ?_⟩⟩⟩
    simpa [h] using h'
  | quiet hsame cells hcells hmem => exact ⟨not_rise hsame.ovr, not_fall hsame.ovr⟩

/-- Settles O42: the reset state is idle, with no outcome and no byte of memory. -/
theorem resetMeetsTheInvariant : Obligations.ResetMeetsTheInvariant :=
  machineInv_of_idle ⟨rfl, nofun⟩ rfl rfl (by decide) (by decide) (by decide)

end Sys2Proof.Machine
end

section
/-! PROOFS. The running command reads the latch, the memory, the platform and the draw, and no live register (10_state.md R40). -/

namespace Sys2Proof.Machine

open Sys2Proof.Safety
/-! ### What a completion reads -/

theorem allAdmitted_congr {s t : State} (L : Latch) (h : t.platform = s.platform) : allAdmitted t L = allAdmitted s L := by
  rw [allAdmitted, allAdmitted, h]

/-- What the running command reads comes from its latch, the memory and the draw (10_state.md R40; log 9). -/
theorem inputImage_congr {s t : State} (L : Latch) (hmem : t.mem = s.mem) (hdraws : t.draws = s.draws) :
    inputImage t L = inputImage s L := by
  simp only [inputImage, unitRead4, unitByte, hmem, hdraws]

theorem scrambleOutput_congr {s t : State} (L : Latch) (hmem : t.mem = s.mem) (hplatform : t.platform = s.platform)
    (hdraws : t.draws = s.draws) : scrambleOutput t L = scrambleOutput s L := by
  simp only [scrambleOutput, hmem, hplatform, hdraws]

/-- The completion while BUSY = 1 (40_command.md R134). -/
theorem completeCommand_running {F : Latch → Image → Image} {s : State} {L : Latch} (hbusy : s.busy = true)
    (hlat : s.lat = some L) : completeCommand F s =
      if touchesDevice s L then .fault .sideEffectBuffer
      else if allAdmitted s L then .next (finishCommand L (F L (inputImage s L)) s)
      else .next (busErrorCommand L s) := by
  simp only [completeCommand, hbusy, hlat]

/-! ### The obligation -/

/-- Settles O39: the fault, the bus error and the output are decided by the latch, the memory, the platform and the draw. -/
theorem runningCommandReadsOnlyTheLatch : Obligations.RunningCommandReadsOnlyTheLatch := by
  intro i s s' t hturn hturn' hbusy hbusy' hlat hsome hmem hplatform hdraws hexec
  obtain ⟨L, hL⟩ := Option.isSome_iff_exists.1 hsome
  obtain ⟨F, hF, -⟩ := exec_eq_runCommand i
  simp only [hF, runCommand, hturn, hturn', completeCommand_running hbusy hL,
    completeCommand_running hbusy' (hlat.symm.trans hL), touchesDevice_congr L hplatform.symm,
    allAdmitted_congr L hplatform.symm, inputImage_congr L hmem.symm hdraws.symm] at hexec ⊢
  split at hexec
  · cases hexec
  · rename_i hdevice
    rw [if_neg hdevice]
    split at hexec <;> rename_i hadmitted <;> cases hexec
    · rw [if_pos hadmitted]
      exact ⟨_, rfl, by rw [finishCommand_mem, finishCommand_mem, hmem], rfl, rfl, fun _ herr hcode => ⟨rfl, herr, hcode⟩⟩
    · rw [if_neg hadmitted]
      exact ⟨_, rfl, scrambleOutput_congr L hmem.symm hplatform.symm hdraws.symm, rfl, rfl,
        fun hdone _ _ => ⟨hdone, rfl, rfl⟩⟩

end Sys2Proof.Machine
end

section
/-! PROOFS. The bus-master memory of 20_memory.md: register accesses that are refused (R76), buffers on memory with side effects
(R78), and what a running command and the host may touch (R82, R83, R89). -/

namespace Sys2Proof.Machine

open Sys2Proof.Safety

/-! ### Refused register accesses -/

/-- Inside the window an access that is not aligned and 32-bit is refused (20_memory.md R76). -/
theorem accessedReg_refused (p : Platform) {off : Nat} {size : AccessSize} (hlt : off < Config.windowSize)
    (h : size ≠ .word ∨ off % 4 ≠ 0) : accessedReg p (p.cmuBase + off) size = .error .registerAccess := by
  simp only [accessedReg, windowOffset_add p hlt]
  exact if_neg fun ⟨hsize, halign⟩ => h.elim (· hsize) (· halign)

/-! ### The bytes of a host access -/

/-- No byte of an access has a property exactly when none at an index below its width has. -/
theorem any_accessBytes_eq_false {addr : Word} {size : AccessSize} {f : Nat → Bool} :
    (accessBytes addr size).any f = false ↔ ∀ j < sizeBytes size, f (addr.toNat + j) = false := by
  simp [accessBytes, byteRange]

theorem any_accessBytes_eq_true {addr : Word} {size : AccessSize} {f : Nat → Bool} {k : Nat} (hk : k < sizeBytes size)
    (h : f (addr.toNat + k) = true) : (accessBytes addr size).any f = true :=
  List.any_eq_true.2 ⟨_, mem_byteRange.2 ⟨by omega, by omega⟩, h⟩

/-- The cells of a 32-bit store, least significant byte first (20_memory.md R72). -/
theorem storedCells_word (addr v : Word) : storedCells addr .word v =
    [(addr.toNat, v.extractLsb' 0 8), (addr.toNat + 1, v.extractLsb' 8 8), (addr.toNat + 2, v.extractLsb' 16 8),
      (addr.toNat + 3, v.extractLsb' 24 8)] := rfl

theorem mem_storedCells_word (addr v : Word) {j : Nat} (hj : j < 4) :
    (addr.toNat + j, v.extractLsb' (8 * j) 8) ∈ storedCells addr .word v := by
  rw [storedCells_word]
  obtain rfl | rfl | rfl | rfl : j = 0 ∨ j = 1 ∨ j = 2 ∨ j = 3 := by omega
  all_goals simp

/-- A byte that no cell of a store names reads as before. -/
theorem Memory.read_writeAll_storedCells_of_notMem {m : Memory} {addr data : Word} {size : AccessSize} {a : Nat}
    (ha : a ∉ accessBytes addr size) : (m.writeAll (storedCells addr size data)).read a = m.read a :=
  read_writeAll_of_notMem fun _ hc he => ha (he ▸ (List.of_mem_zip hc).1)

/-- Byte lane j of a word assembled from four bytes (00_scope.md R9). -/
theorem extractLsb'_wordOfLanes (f : Nat → Byte) {j : Nat} (hj : j < 4) :
    (wordOfLanes (f 0) (f 1) (f 2) (f 3)).extractLsb' (8 * j) 8 = f j := by
  obtain ⟨hr, hg, hb, ha⟩ := Pixel.mk.inj (pixelOfWord_wordOfLanes (f 0) (f 1) (f 2) (f 3))
  obtain rfl | rfl | rfl | rfl : j = 0 ∨ j = 1 ∨ j = 2 ∨ j = 3 := by omega
  · exact hr
  · exact hg
  · exact hb
  · exact ha

/-! ### The buffers of the running command -/

section Running
variable {s : State} {L : Latch} (hbusy : s.busy = true) (hlat : s.lat = some L)
include hbusy hlat

theorem busyBuffer_running (a : Nat) : busyBuffer s a = (inInput L a || inOutput L a) := by
  simp only [busyBuffer, hbusy, hlat]

theorem busyOutput_running (a : Nat) : busyOutput s a = inOutput L a := by
  simp only [busyOutput, hbusy, hlat]

end Running

/-- The ending of a running command: BUSY = 0, and the notes of its output range are settled (40_command.md R134; log 9). -/
theorem exec_unit_ends {i : Instr} {s t : State} {L : Latch} (hturn : s.turn = .unit) (h : exec i s = .next t)
    (hbusy : s.busy = true) (hlat : s.lat = some L) :
    t.busy = false ∧ t.unseen = settleNotes s L := by
  obtain ⟨-, ⟨-, out, rfl, -⟩ | ⟨-, rfl⟩⟩ := exec_unit_cases hturn hbusy hlat h
  · exact ⟨rfl, rfl⟩
  · exact ⟨rfl, rfl⟩

theorem busyBuffer_idle {s : State} (hidle : s.busy = false) (a : Nat) : busyBuffer s a = false := by
  simp only [busyBuffer, hidle]

theorem busyOutput_idle {s : State} (hidle : s.busy = false) (a : Nat) : busyOutput s a = false := by
  simp only [busyOutput, hidle]

/-- The input and the output range of a command that passed the checks are disjoint (20_memory.md R81, 40_command.md R132). -/
theorem inOutput_eq_false_of_inInput {L : Latch} {a : Nat} (hcheck : checkLatch L = none) (ha : inInput L a = true) :
    inOutput L a = false := by
  obtain ⟨-, -, -, -, -, hdisjoint⟩ := checkLatch_eq_none.1 hcheck
  rw [inInput_iff] at ha
  refine Bool.eq_false_iff.2 fun ho => ?_
  rw [inOutput_iff] at ho
  omega

/-- The completion with DONE leaves every byte outside the output range (20_memory.md R89). -/
theorem read_finishCommand_of_outside {s : State} {L : Latch} {out : Image} {a : Nat}
    (hlen : out.pixels.length = latW L * latH L) (ha : inOutput L a = false) :
    (finishCommand L out s).mem.read a = s.mem.read a := by
  refine Memory.read_writePixels_of_outside ?_
  rw [Bool.eq_false_iff, Ne, inOutput_iff, latN4, ← hlen] at ha
  omega

/-! ### Host accesses to memory -/

section Access
variable (s : State) {addr : Word} {size : AccessSize} (hend : addr.toNat + sizeBytes size ≤ 2 ^ 32)
  (hdevice : ∀ j < sizeBytes size, isDevice s.platform (addr.toNat + j) = false)
include hend hdevice

/-- A store inside the space and to no device is judged by the running command's buffers alone (20_memory.md R83). -/
theorem step_hostDoes_memWrite (data : Word) : step (hostDoes s (.memWrite addr size data)) =
    if (accessBytes addr size).any (busyBuffer s) then .fault .hostWroteBusyBuffer
    else .next { s with
      turn := .host
      mem := s.mem.writeAll (storedCells addr size data)
      unseen := storeNotes (storedCells addr size data) s ++ s.unseen } := by
  rw [step_hostDoes, hostStatement, hostMemWrite]
  exact (if_neg (Nat.not_lt.2 hend)).trans (if_neg (Bool.eq_false_iff.1 (any_accessBytes_eq_false.2 hdevice)))

/-- A load inside the space and to no device gives its value (20_memory.md R83). -/
theorem step_hostDoes_memRead : step (hostDoes s (.memRead addr size)) =
    .next { s with turn := .host, rdata := hostLoad addr size s, draws := s.draws + 1 } := by
  rw [step_hostDoes, hostStatement, hostMemRead]
  exact (if_neg (Nat.not_lt.2 hend)).trans (if_neg (Bool.eq_false_iff.1 (any_accessBytes_eq_false.2 hdevice)))

end Access

/-- Each byte a 32-bit host load returns (20_memory.md R83). -/
theorem extractLsb'_hostLoad (addr : Word) (s : State) {j : Nat} (hj : j < 4) :
    (hostLoad addr .word s).extractLsb' (8 * j) 8 = hostByte s (addr.toNat + j) :=
  extractLsb'_wordOfLanes (fun k => hostByte s (addr.toNat + k)) hj

/-- A host statement that leaves BUSY = 1 keeps the running command's buffers and its latch (20_memory.md R83). -/
theorem hostStatement_keeps_buffers {op : HostOp} {s t : State} {L : Latch} {a : Nat}
    (h : hostStatement (fun w s => exec (decode w) s) op s = .next t) (hturn : s.turn = .host) (hbusy : s.busy = true)
    (hlat : s.lat = some L) (ha : busyBuffer s a = true) (ht : t.busy = true) :
    t.mem.read a = s.mem.read a ∧ t.lat = some L := by
  rcases hostStatement_cases h with
    ⟨w, -, hrun⟩ | ⟨r, v, off, -, -, -, rfl⟩ | ⟨hunit, hmem, -⟩ | ⟨addr, size, data, -, -, hfree, rfl⟩ | ⟨-, rfl⟩
  · rw [exec_host hturn, issueCommand, if_pos hbusy] at hrun
    cases hrun
    exact ⟨rfl, hlat⟩
  · rcases writeReg_cases r v s with ⟨-, -, hreset⟩ | ⟨-, hclear⟩ | ⟨hsame, hmem⟩
    · rw [hreset] at ht; cases ht
    · rw [hclear]; exact ⟨rfl, hlat⟩
    · exact ⟨by rw [hmem], hsame.lat.trans hlat⟩
  · exact ⟨by rw [hmem], hunit.sameLifecycle.lat.trans hlat⟩
  · refine ⟨Memory.read_writeAll_storedCells_of_notMem fun hmem => ?_, hlat⟩
    rw [hfree a hmem] at ha
    cases ha
  · exact ⟨rfl, hlat⟩

/-! ### The obligations -/

/-- Settles O38: the completion with DONE writes pixels of the output range, which the checks hold apart from the input. -/
theorem completionWritesOnlyTheOutputRange : Obligations.CompletionWritesOnlyTheOutputRange := by
  intro i s t L hs hturn hbusy hlat hexec hdone a ha
  have hout : inOutput L a = false := ha.elim (inOutput_eq_false_of_inInput (hs.accepted L hlat).1) id
  obtain ⟨-, ⟨-, out, rfl, hlen⟩ | ⟨-, rfl⟩⟩ := exec_unit_cases hturn hbusy hlat hexec
  · exact read_finishCommand_of_outside hlen hout
  · rw [busErrorCommand_done, (hs.running hbusy).1] at hdone
    cases hdone

/-- Settles O46: a reset and a completion end with BUSY = 0, and the host's statements keep the buffers. -/
theorem buffersAreStableWhileBusy : Obligations.BuffersAreStableWhileBusy := by
  intro s t L a hbusy hlat ha hstep ht
  rcases step_cases hstep with ⟨rest, -, rfl⟩ | ⟨L', hb, hl, hexec⟩ | ⟨agent, rfl⟩ | ⟨op, ops, -, hhost⟩
  · cases ht
  · rw [(exec_unit_ends rfl hexec hb hl).1] at ht
    cases ht
  · exact ⟨rfl, hlat⟩
  · have hbuffer : busyBuffer (afterMove s .host ops) a = true :=
      (busyBuffer_running (s := afterMove s .host ops) hbusy hlat a).trans ((Bool.or_eq_true _ _).mpr ha)
    exact hostStatement_keeps_buffers (s := afterMove s .host ops) hhost rfl hbusy hlat hbuffer ht

/-- Settles O47: of the stops of a store only the running command's buffers are left. -/
theorem hostStoreToBusyBufferFaults : Obligations.HostStoreToBusyBufferFaults := by
  intro s L addr v size k hbusy hlat hend hdevice hk hrange
  rw [step_hostDoes_memWrite s hend hdevice]
  refine if_pos (any_accessBytes_eq_true hk ?_)
  rw [busyBuffer_running hbusy hlat, Bool.or_eq_true]
  exact hrange

/-- Settles O48: each byte lane of the load is the host's byte there. -/
theorem hostLoadWhileBusy : Obligations.HostLoadWhileBusy := by
  intro s L addr hbusy hlat hend hdevice
  refine ⟨_, step_hostDoes_memRead s (size := .word) hend hdevice, rfl, fun j hj => ?_⟩
  rw [extractLsb'_hostLoad addr s hj, hostByte, busyOutput_running hbusy hlat]

/-- Settles O20: each access stops at the register it would reach. -/
theorem otherRegisterAccessesAreRefused : Obligations.OtherRegisterAccessesAreRefused := by
  intro s off size v m hlt
  refine ⟨fun h => ⟨?_, ?_⟩, fun h => ?_⟩ <;> rw [step_hostDoes, hostStatement]
  · rw [hostRegWrite, accessedReg_refused s.platform hlt h]
  · rw [hostRegRead, accessedReg_refused s.platform hlt h]
  · rw [hostPoll, accessedReg_refused s.platform hlt (.inr h)]

/-- Settles O37: both phases look for a device byte in the ranges before anything else is done with them. -/
theorem sideEffectBufferFaults : Obligations.SideEffectBufferFaults := by
  refine ⟨fun i s a hturn hidle hcheck ha hok hdev => ?_, fun i s L a hturn hbusy hlat ha hok hdev => ?_⟩
  · have htouch : touchesDevice s (takeLatch (encode i) s) = true := touchesDevice_iff.2 ⟨a, ha, hok, hdev⟩
    rw [exec_host hturn, issueCommand, hidle, acceptCommand, hcheck, htouch]
    rfl
  · have htouch : touchesDevice s L = true := touchesDevice_iff.2 ⟨a, ha, hok, hdev⟩
    obtain ⟨F, hF, -⟩ := exec_eq_runCommand i
    rw [hF, runCommand, hturn]
    exact (completeCommand_running hbusy hlat).trans (if_pos htouch)

end Sys2Proof.Machine
end

section
/-! PROOFS. Host stores that the bus master has not seen (20_memory.md R82 (a), 93_implementation_defined.md U23): the host's
fence, what a command latches of the notes, and what its completion leaves of them. -/

namespace Sys2Proof.Machine

open Sys2Proof.Safety

/-! ### The fence -/

/-- A fence with no unseen store in the running command's output range takes every note away (20_memory.md R82 (a)). -/
theorem step_hostDoes_fence {s : State} (h : ∀ n ∈ s.unseen, busyOutput s n.addr = false) :
    step (hostDoes s .fence) = .next { s with turn := .host, unseen := [] } := by
  rw [step_hostDoes, hostStatement, hostFence]
  exact if_neg (Bool.eq_false_iff.1 (List.any_eq_false.2 fun n hn => Bool.eq_false_iff.1 (h n hn)))

/-- A fence with an unseen store in the running command's output range faults (20_memory.md R83). -/
theorem step_hostDoes_fence_fault {s : State} {n : StoreNote} (hn : n ∈ s.unseen) (ho : busyOutput s n.addr = true) :
    step (hostDoes s .fence) = .fault .hostWroteBusyBuffer := by
  rw [step_hostDoes, hostStatement, hostFence]
  exact if_pos (List.any_eq_true.2 ⟨n, hn, ho⟩)

/-! ### Acceptance and notes -/

/-- A CMD write touches neither the memory nor the notes (60_exceptions.md R219). -/
theorem exec_host_keeps {i : Instr} {s t : State} (h : exec i s = .next t) (hturn : s.turn = .host) :
    t.mem = s.mem ∧ t.unseen = s.unseen := by
  rw [exec_host hturn] at h
  rcases issueCommand_cases (encode i) s with ⟨-, he⟩ | ⟨-, -, -, he⟩ | ⟨-, e, -, -, he⟩ | ⟨-, -, -, he⟩
  all_goals
    rw [h] at he
    cases he
  all_goals exact ⟨rfl, rfl⟩

/-- A latch that an idle machine holds after a CMD write has the notes of that moment (40_command.md R131; log 9). -/
theorem latch_unseen_of_exec {i : Instr} {s t : State} {L : Latch} (h : exec i s = .next t)
    (hturn : s.turn = .host) (hidle : s.busy = false) (hlat : t.lat = some L) : L.unseen = s.unseen := by
  rw [exec_host hturn] at h
  rcases issueCommand_cases (encode i) s with ⟨hb, -⟩ | ⟨-, -, -, he⟩ | ⟨-, e, -, -, he⟩ | ⟨-, -, -, he⟩
  · rw [hidle] at hb; cases hb
  · rw [h] at he; cases he; cases hlat; rfl
  · rw [h] at he; cases he; cases hlat
  · rw [h] at he; cases he

/-- A command accepted while there is no note reads memory (20_memory.md R82 (a)). -/
theorem unitByte_of_accepted {i : Instr} {s t : State} {L : Latch} (h : exec i s = .next t)
    (hturn : s.turn = .host) (hidle : s.busy = false) (hunseen : s.unseen = []) (hlat : t.lat = some L) (u : State) (a : Nat) :
    unitByte u L a = u.mem.read a :=
  unitByte_of_unseen_nil ((latch_unseen_of_exec h hturn hidle hlat).trans hunseen) u a

/-- A note outside the output range is not settled (log 9). -/
theorem mem_settleNotes_of_outside {s : State} {L : Latch} {n : StoreNote} (hn : n ∈ s.unseen)
    (ho : inOutput L n.addr = false) : n ∈ settleNotes s L :=
  List.mem_map.2 ⟨n, hn, by simp [ho]⟩

/-- A completion with DONE settles the notes of its output range and keeps the others as they are (log 9). -/
theorem notes_of_completion {i : Instr} {s t : State} {L : Latch} (hready : ReadyToComplete s L) (h : exec i s = .next t) :
    (∀ n ∈ t.unseen, (inOutput L n.addr = true → n.older = n.stored) ∧ (inOutput L n.addr = false → n ∈ s.unseen)) ∧
    (∀ n ∈ s.unseen, inOutput L n.addr = false → n ∈ t.unseen) := by
  obtain ⟨hturn, hbusy, hlat, hadmitted, -⟩ := hready
  rw [(exec_unit_ends hturn h hbusy hlat).2]
  refine ⟨fun n hn => ?_, fun n hn ho => mem_settleNotes_of_outside hn ho⟩
  obtain ⟨hinside, houtside⟩ := mem_settleNotes hn
  exact ⟨fun ho => hinside ho (allAdmitted_iff.1 hadmitted _ (.inr ho)), fun ho => houtside (.inl ho)⟩

/-- A command accepted right after one that completed while there was no note reads memory (20_memory.md R82 (a)). -/
theorem unitByte_of_accepted_after_completion {i j : Instr} {s u u' : State} {L L' : Latch} (hu : exec i s = .next u)
    (hturn : s.turn = .unit) (hbusy : s.busy = true) (hlat : s.lat = some L) (hunseen : s.unseen = [])
    (hu' : exec j { u with turn := .host } = .next u') (hlat' : u'.lat = some L') (a : Nat) :
    unitByte u' L' a = u'.mem.read a := by
  obtain ⟨hidle, hsettled⟩ := exec_unit_ends hturn hu hbusy hlat
  exact unitByte_of_accepted hu' rfl hidle (hsettled.trans (settleNotes_nil L hunseen)) hlat' u' a

/-- With no note a reset leaves none. -/
theorem abandonedNotes_nil {s : State} (h : s.unseen = []) : abandonedNotes s = [] := by
  unfold abandonedNotes
  split
  · exact settleNotes_nil _ h
  · exact h
  · exact h

/-- With no note a register write leaves none. -/
theorem writeReg_unseen_nil {s : State} (r : Reg) (v : Word) (h : s.unseen = []) : (writeReg r v s).unseen = [] := by
  cases r with
  | ctrl =>
    rw [writeReg, writeCtrl]
    split
    · exact abandonedNotes_nil h
    · exact h
  | _ => exact h

/-- With no note every host statement but a memory store leaves none (log 9). -/
theorem hostStatement_notes_only_memWrite {op : HostOp} {s t : State}
    (h : hostStatement (fun w s => exec (decode w) s) op s = .next t) (hturn : s.turn = .host) (hunseen : s.unseen = [])
    (ht : t.unseen ≠ []) :
    ∃ addr size data, op = .memWrite addr size data := by
  rcases hostStatement_cases h with
    ⟨w, -, hrun⟩ | ⟨r, v, off, -, -, -, rfl⟩ | ⟨-, -, hkept⟩ | ⟨addr, size, data, hop, -⟩ | ⟨-, rfl⟩
  · exact absurd ((exec_host_keeps hrun hturn).2.trans hunseen) ht
  · exact absurd (writeReg_unseen_nil r v hunseen) ht
  · exact absurd (hkept.trans hunseen) ht
  · exact ⟨addr, size, data, hop⟩
  · exact absurd rfl ht

/-- From a state with no note, only a step of the host that stores makes one (log 9). -/
theorem step_notes_only_memWrite {s t : State} (hunseen : s.unseen = []) (hstep : step s = .next t) (ht : t.unseen ≠ []) :
    ∃ addr size data ops, s.prog = .memWrite addr size data :: ops := by
  rcases step_cases hstep with ⟨rest, -, rfl⟩ | ⟨L, hbusy, hlat, hexec⟩ | ⟨agent, rfl⟩ | ⟨op, ops, hprog, hhost⟩
  · exact absurd (abandonedNotes_nil hunseen) ht
  · have hsettled := (exec_unit_ends rfl hexec hbusy hlat).2
    exact absurd (hsettled.trans (settleNotes_nil L hunseen)) ht
  · exact absurd hunseen ht
  · obtain ⟨addr, size, data, rfl⟩ := hostStatement_notes_only_memWrite hhost rfl hunseen ht
    exact ⟨addr, size, data, ops, hprog⟩

/-! ### The obligations -/

/-- Settles O49: the store is a 4-byte write; a command accepted before the fence latches the notes, one after it none. -/
theorem hostStoreIsSeenAfterTheFence : Obligations.HostStoreIsSeenAfterTheFence := by
  intro s addr v hmem hidle hend hdevice
  have hfree : (accessBytes addr .word).any (busyBuffer s) = false :=
    any_accessBytes_eq_false.2 fun _ _ => busyBuffer_idle hidle _
  have hstore := step_hostDoes_memWrite s (size := .word) hend hdevice v
  rw [hfree] at hstore
  refine ⟨_, _, hstore, fun j hj => ?_, fun a ha => ?_, fun j hj => ?_, ?_,
    step_hostDoes_fence fun n _ => busyOutput_idle hidle n.addr, rfl, rfl, hidle, ?_⟩
  · exact Memory.read_write4_lane hmem addr.toNat v hj
  · exact Memory.read_write4_of_outside s.mem v ha
  · exact List.mem_append_left _ (List.mem_map_of_mem (mem_storedCells_word addr v hj))
  · intro i t' L hexec hlat hturn a
    rw [← latch_unseen_of_exec hexec hturn hidle hlat, ← (exec_host_keeps hexec hturn).1]
    exact unitByte_cases t' L a
  · intro i u' L hexec hlat a
    rw [← (exec_host_keeps hexec rfl).1]
    exact unitByte_of_accepted hexec rfl hidle rfl hlat u' a

/-- Settles O60: the fence empties the notes, a completion settles them and no step but a host store makes one. -/
theorem fenceWhileBusyServesTheNextCommand : Obligations.FenceWhileBusyServesTheNextCommand := by
  refine ⟨fun s L hbusy hlat hclear => ?_, fun i s t L hready hexec => notes_of_completion hready hexec,
    fun s L n hbusy hlat hn ho => step_hostDoes_fence_fault hn ((busyOutput_running hbusy hlat n.addr).trans ho),
    fun s t => step_notes_only_memWrite,
    fun i s t L hunseen hturn hidle hexec hlat => unitByte_of_accepted hexec hturn hidle hunseen hlat⟩
  have hfence := step_hostDoes_fence fun n hn => (busyOutput_running hbusy hlat n.addr).trans (hclear n hn)
  exact ⟨_, hfence, rfl, fun a => rfl, fun i u hu j u' L' hu' hlat' =>
    unitByte_of_accepted_after_completion hu rfl hbusy hlat rfl hu' hlat'⟩

end Sys2Proof.Machine
end

section
/-! PROOFS. The command words of 30_encoding.md: the decoder and the encoder are inverse to each other (R106, R107), every word
is in exactly one row of the opcode map (R113), and the bits the decoder ignores change no effect (R104, R105). -/

namespace Sys2Proof.Machine

/-! ### The decoder and the encoder -/

/-- The decoder reads a well-formed command back from its word (30_encoding.md R106). -/
theorem decode_encode {i : Instr} (h : i.WellFormed) : decode (encode i) = i := by
  cases i with
  | copy sel ign => exact Laws.RoundTrip.copy sel ign h
  | cmId ign => exact Laws.RoundTrip.cmId ign h
  | cmGray ign => exact Laws.RoundTrip.cmGray ign h
  | cmBin ign => exact Laws.RoundTrip.cmBin ign h
  | cmUser ign => exact Laws.RoundTrip.cmUser ign h
  | cmRsvLo sel ign => exact Laws.RoundTrip.cmRsvLo sel ign h
  | cmRsvHi sel ign => exact Laws.RoundTrip.cmRsvHi sel ign h
  | firId ign => exact Laws.RoundTrip.firId ign h
  | firBlur ign => exact Laws.RoundTrip.firBlur ign h
  | firEdge ign => exact Laws.RoundTrip.firEdge ign h
  | firUser ign => exact Laws.RoundTrip.firUser ign h
  | firRsvLo sel ign => exact Laws.RoundTrip.firRsvLo sel ign h
  | firRsvHi sel ign => exact Laws.RoundTrip.firRsvHi sel ign h
  | blur sel ign => exact Laws.RoundTrip.blur sel ign h
  | opRsvLo op sel ign => exact Laws.RoundTrip.opRsvLo op sel ign h
  | opRsvHi op sel ign => exact Laws.RoundTrip.opRsvHi op sel ign h

/-- A selector that is none of the four recognized ones lies above them. -/
theorem four_le_toNat {x : BitVec 4} (h0 : x ≠ 0x0#4) (h1 : x ≠ 0x1#4) (h2 : x ≠ 0x2#4) (h3 : x ≠ 0x3#4) : 4 ≤ x.toNat := by
  bv_omega

theorem wellFormed_decodeCm (sel : BitVec 4) (ign : BitVec 24) : (decodeCm sel ign).WellFormed := by
  unfold decodeCm
  split_ifs with h0 h1 h2 h3 h8
  iterate 4 rfl
  · exact decide_eq_true ⟨four_le_toNat h0 h1 h2 h3, h8⟩
  · exact decide_eq_true (Nat.not_lt.1 h8)

theorem wellFormed_decodeFir (sel : BitVec 4) (ign : BitVec 24) : (decodeFir sel ign).WellFormed := by
  unfold decodeFir
  split_ifs with h0 h1 h2 h3 h8
  iterate 4 rfl
  · exact decide_eq_true ⟨four_le_toNat h0 h1 h2 h3, h8⟩
  · exact decide_eq_true (Nat.not_lt.1 h8)

/-- The decoder gives well-formed commands only (30_encoding.md R107). -/
theorem wellFormed_decode (w : Word) : (decode w).WellFormed := by
  unfold decode
  split_ifs with h0 h1 h2 h3 h8
  · rfl
  · exact wellFormed_decodeCm _ _
  · exact wellFormed_decodeFir _ _
  · rfl
  · exact decide_eq_true ⟨four_le_toNat h0 h1 h2 h3, h8⟩
  · exact decide_eq_true (Nat.not_lt.1 h8)

/-! ### The opcode map -/

theorem opcodeRow_mem_opcodeRows (i : Instr) : opcodeRow i ∈ opcodeRows := by
  cases i <;> simp [opcodeRow, opcodeRows]

/-- Two rows of the map differ at a bit that both masks look at (30_encoding.md R113). -/
theorem opcodeRows_disjoint : ∀ r ∈ opcodeRows, ∀ r' ∈ opcodeRows, r.pattern &&& r'.mask = r'.pattern &&& r.mask → r = r' := by
  decide

/-- No word matches two rows of the map. -/
theorem eq_of_rowMatches {w : Word} {r r' : OpcodeRow} (hr : r ∈ opcodeRows) (hr' : r' ∈ opcodeRows)
    (h : rowMatches w r = true) (h' : rowMatches w r' = true) : r = r' := by
  refine opcodeRows_disjoint r hr r' hr' ?_
  rw [← eq_of_beq h, ← eq_of_beq h']
  ac_rfl

/-- The bitwise AND of two command words, field by field. -/
theorem commandWord_and (op op' sel sel' : BitVec 4) (ign ign' : BitVec 24) :
    commandWord op sel ign &&& commandWord op' sel' ign' = commandWord (op &&& op') (sel &&& sel') (ign &&& ign') :=
  BitVec.and_append.trans (congrArg (· ++ (op &&& op')) BitVec.and_append)

/-- A row that looks at OP and SEL alone is matched field by field. -/
theorem rowMatches_commandWord {op sel p q : BitVec 4} (m n : BitVec 4) (ign : BitVec 24) (hop : op &&& m = p)
    (hsel : sel &&& n = q) : rowMatches (commandWord op sel ign) ⟨commandWord p q 0#24, commandWord m n 0#24⟩ = true := by
  rw [rowMatches, commandWord_and, hop, hsel, BitVec.and_zero]
  exact beq_self_eq_true _

/-- A row that fixes OP and SEL is matched by its form, whatever IGN is. -/
theorem rowMatches_form (op sel : BitVec 4) (ign : BitVec 24) :
    rowMatches (commandWord op sel ign) ⟨commandWord op sel 0#24, 0xFF#32⟩ = true :=
  rowMatches_commandWord 0xF#4 0xF#4 ign BitVec.and_allOnes BitVec.and_allOnes

/-- A value in 0x4..0x7 has its top two bits at 01. -/
theorem and_top_of_lt_eight {x : BitVec 4} (h : 4 ≤ x.toNat ∧ x.toNat < 8) : x &&& 0xC#4 = 0x4#4 :=
  (by decide : ∀ y : BitVec 4, 4 ≤ y.toNat ∧ y.toNat < 8 → y &&& 0xC#4 = 0x4#4) x h

/-- A value in 0x8..0xF has its top bit at 1. -/
theorem and_top_of_eight_le {x : BitVec 4} (h : 8 ≤ x.toNat) : x &&& 0x8#4 = 0x8#4 :=
  (by decide : ∀ y : BitVec 4, 8 ≤ y.toNat → y &&& 0x8#4 = 0x8#4) x h

/-- The word of a well-formed command matches the command's row (30_encoding.md R113). -/
theorem rowMatches_encode {i : Instr} (h : i.WellFormed) : rowMatches (encode i) (opcodeRow i) = true := by
  cases i with
  | cmId ign | cmGray ign | cmBin ign | cmUser ign | firId ign | firBlur ign | firEdge ign | firUser ign =>
    exact rowMatches_form _ _ ign
  | copy sel ign | blur sel ign => exact rowMatches_commandWord 0xF#4 0x0#4 ign rfl BitVec.and_zero
  | cmRsvLo sel ign | firRsvLo sel ign =>
    exact rowMatches_commandWord 0xF#4 0xC#4 ign rfl (and_top_of_lt_eight (of_decide_eq_true h))
  | cmRsvHi sel ign | firRsvHi sel ign =>
    exact rowMatches_commandWord 0xF#4 0x8#4 ign rfl (and_top_of_eight_le (of_decide_eq_true h))
  | opRsvLo op sel ign =>
    exact rowMatches_commandWord 0xC#4 0x0#4 ign (and_top_of_lt_eight (of_decide_eq_true h)) BitVec.and_zero
  | opRsvHi op sel ign =>
    exact rowMatches_commandWord 0x8#4 0x0#4 ign (and_top_of_eight_le (of_decide_eq_true h)) BitVec.and_zero

/-! ### The ignored bits -/

/-- Bits [7:0] hold OP and SEL (30_encoding.md R100). -/
theorem fields_eq_of_lowByte_eq {w v : Word} (h : w.extractLsb' 0 8 = v.extractLsb' 0 8) :
    opField w = opField v ∧ selField w = selField v := by
  have hop (u : Word) : opField u = (u.extractLsb' 0 8).extractLsb' 0 4 := by
    rw [BitVec.extractLsb'_extractLsb'_of_le (by decide)]; rfl
  have hsel (u : Word) : selField u = (u.extractLsb' 0 8).extractLsb' 4 4 := by
    rw [BitVec.extractLsb'_extractLsb'_of_le (by decide)]; rfl
  rw [hop, hop v, hsel, hsel v, h]
  exact ⟨rfl, rfl⟩

section UnitTurn

variable {s : State} (hturn : s.turn = .unit)
include hturn

/-- On the unit's turn the command word is not read again: the engine decides (40_command.md R134). -/
theorem runCommand_unit_congr (w v : Word) (F : Latch → Image → Image) : runCommand w F s = runCommand v F s := by
  rw [runCommand, runCommand, hturn]

theorem exec_decodeCm_congr (sel : BitVec 4) (ign ign' : BitVec 24) :
    exec (decodeCm sel ign) s = exec (decodeCm sel ign') s := by
  unfold decodeCm
  split_ifs <;> exact runCommand_unit_congr hturn _ _ _

theorem exec_decodeFir_congr (sel : BitVec 4) (ign ign' : BitVec 24) :
    exec (decodeFir sel ign) s = exec (decodeFir sel ign') s := by
  unfold decodeFir
  split_ifs <;> exact runCommand_unit_congr hturn _ _ _

/-- On the unit's turn OP and SEL decide what a word does (30_encoding.md R105). -/
theorem exec_decode_congr {w v : Word} (hop : opField w = opField v) (hsel : selField w = selField v) :
    exec (decode w) s = exec (decode v) s := by
  unfold decode
  rw [hop, hsel]
  split_ifs
  · exact runCommand_unit_congr hturn _ _ _
  · exact exec_decodeCm_congr hturn _ _ _
  · exact exec_decodeFir_congr hturn _ _ _
  · exact runCommand_unit_congr hturn _ _ _
  · exact runCommand_unit_congr hturn _ _ _
  · exact runCommand_unit_congr hturn _ _ _

/-- On the unit's turn SEL of COPY and of BLUR is ignored too (30_encoding.md R104). -/
theorem exec_decode_congr_of_op {w v : Word} (hop : opField w = opField v) (h : opField w = 0x0#4 ∨ opField w = 0x3#4) :
    exec (decode w) s = exec (decode v) s := by
  rw [← commandWord_fields w, ← commandWord_fields v, ← hop]
  rcases h with h | h <;> rw [h]
  · rw [decode_copy, decode_copy]; exact runCommand_unit_congr hturn _ _ _
  · rw [decode_blur, decode_blur]; exact runCommand_unit_congr hturn _ _ _

end UnitTurn

/-- A CMD write to an idle unit with no device under its buffers is taken, and CMD reads back the word (10_state.md R29). -/
theorem issueCommand_readback {w : Word} {s : State} (hidle : s.busy = false)
    (hdevice : touchesDevice s (takeLatch w s) = false) : ∃ t, issueCommand w s = .next t ∧ readReg .cmd t = w := by
  rcases issueCommand_cases w s with ⟨hbusy, -⟩ | ⟨-, -, -, hnext⟩ | ⟨-, e, -, -, hnext⟩ | ⟨-, -, htouch, -⟩
  · rw [hidle] at hbusy; cases hbusy
  · exact ⟨_, hnext, rfl⟩
  · exact ⟨_, hnext, rfl⟩
  · rw [hdevice] at htouch; cases htouch

/-! ### The obligations -/

/-- Settles O1: the round trip of each row, and the byte lanes of a word decode as the word. -/
theorem decodeOfEncodedCommand : Obligations.DecodeOfEncodedCommand := fun i rest h =>
  ⟨decode_encode h, by rw [decodeBytes_byteLanes, decode_encode h]⟩

/-- Settles O2: each branch of the decoder gives a well-formed command and keeps every field. -/
theorem everyWordIsOneCommand : Obligations.EveryWordIsOneCommand := fun w => ⟨wellFormed_decode w, encode_decode w⟩

/-- Settles O3: a word is the word of the command it decodes to, which matches its row, and no two rows share a word. -/
theorem everyWordMatchesExactlyOneRow : Obligations.EveryWordMatchesExactlyOneRow := by
  intro w
  have hmem := opcodeRow_mem_opcodeRows (decode w)
  have hmatch := rowMatches_encode (wellFormed_decode w)
  rw [encode_decode] at hmatch
  exact ⟨hmem, hmatch, fun r hr h => eq_of_rowMatches hr hmem h hmatch⟩

/-- Settles O5: the engine is chosen by OP and SEL, and the CMD write keeps the word the command was decoded from. -/
theorem ignoredBitsHaveNoEffect : Obligations.IgnoredBitsHaveNoEffect := by
  refine ⟨fun w v s hlow hturn => ?_, fun w v s hop h hturn => exec_decode_congr_of_op hturn hop h,
    fun w s hturn hidle hdevice => ?_⟩
  · obtain ⟨hop, hsel⟩ := fields_eq_of_lowByte_eq hlow
    exact exec_decode_congr hturn hop hsel
  · rw [exec_host hturn, encode_decode]
    exact issueCommand_readback hidle hdevice

/-- Settles O4: each canonical word is its command's word with IGN = 0. -/
theorem canonicalCommandWords : Obligations.CanonicalCommandWords :=
  ⟨decode_encode (i := .copy 0#4 0#24) rfl, decode_encode (i := .cmId 0#24) rfl, decode_encode (i := .cmGray 0#24) rfl,
    decode_encode (i := .cmBin 0#24) rfl, decode_encode (i := .cmUser 0#24) rfl, decode_encode (i := .firId 0#24) rfl,
    decode_encode (i := .firBlur 0#24) rfl, decode_encode (i := .firEdge 0#24) rfl, decode_encode (i := .firUser 0#24) rfl,
    decode_encode (i := .blur 0#4 0#24) rfl⟩

end Sys2Proof.Machine
end

section
/-! PROOFS. The host's register statements of 30_encoding.md R111, said once for a register by its name, and the steps that run
them: a CMD write runs its command, a read and a poll change nothing in the unit. -/

namespace Sys2Proof.Machine

open Sys2Proof.Safety

/-! ### Register accesses by name -/

/-- A register's value does not depend on whose turn it is. -/
theorem readReg_setTurn (r : Reg) (s : State) (a : Agent) : readReg r { s with turn := a } = readReg r s := by
  cases r <;> rfl

/-- `rd REG` (30_encoding.md R111). -/
theorem step_hostDoes_rd (s : State) (r : Reg) :
    step (hostDoes s (asmRd s.platform r)) = .next { s with turn := .host, rdata := readReg r s } := by
  rw [step_hostDoes]
  simp only [asmRd, hostStatement, hostRegRead, accessedReg_own s.platform r, readReg_setTurn]

/-- One read of `poll REG, mask, val` (30_encoding.md R111). -/
theorem step_hostDoes_poll (s : State) (r : Reg) (mask val : Word) : step (hostDoes s (asmPoll s.platform r mask val)) =
    if readReg r s &&& mask = val then .next { s with turn := .host, rdata := readReg r s }
    else .next { s with turn := .host, rdata := readReg r s, prog := asmPoll s.platform r mask val :: s.prog } := by
  rw [step_hostDoes]
  simp only [asmPoll, hostStatement, hostPoll, accessedReg_own s.platform r, readReg_setTurn]

/-! ### The CMD write of a step -/

/-- A host move whose statement writes CMD is `exec` of the decoded word (10_state.md R29). -/
theorem step_asmWr_cmd {s : State} {w : Word} {ops : List HostOp} (he : nextEvent s = .hostMove)
    (hprog : s.prog = asmWr s.platform .cmd w :: ops) :
    step s = exec (decode w) { s with sched := s.sched.tail, prog := ops, turn := .host } := by
  rw [step_host he hprog]
  simp only [asmWr, hostStatement, hostRegWrite, accessedReg_own s.platform .cmd]

/-- A word placed by `withFetchWord` is the host's next CMD write. -/
theorem withFetchWord_toNat (s : State) (w : Word) : s.withFetchWord 32 w.toNat = hostDoes s (asmWr s.platform .cmd w) := by
  rw [State.withFetchWord, Nat.mod_eq_of_lt w.isLt, BitVec.ofNat_toNat, BitVec.setWidth_eq]
  rfl

/-! ### The obligations -/

/-- Settles O6: with a scheduled or an implied host move the statement at the head runs, and so does one just placed. -/
theorem stepRunsIssuedCommand : Obligations.StepRunsIssuedCommand := by
  refine ⟨fun s w ops rest hprog hsched => ?_, fun s w ops hprog hsched hidle => ?_, fun s w => ?_⟩
  · rw [step_asmWr_cmd (by rw [nextEvent, hsched]) hprog, hsched]
    rfl
  · rw [step_asmWr_cmd (by rw [nextEvent, hsched, hidle]; rfl) hprog, hsched]
    rfl
  · rw [withFetchWord_toNat]
    exact step_asmWr_cmd rfl rfl

/-- Settles O19: a read and one read of a poll, on the state with the host's turn. -/
theorem registerReadsAndPolls : Obligations.RegisterReadsAndPolls := ⟨step_hostDoes_rd, step_hostDoes_poll⟩

end Sys2Proof.Machine
end

section
/-! PROOFS. The commands of 40_command.md: acceptance and the dropped write (R130 to R133), the completion (R134), the identity
commands (R136, R137), and the output as a function of the latch and the input range (R139). -/

namespace Sys2Proof.Machine

open Sys2Proof.Safety

/-! ### The latch in terms of the live registers -/

theorem latSrc_takeLatch (w : Word) (s : State) : latSrc (takeLatch w s) = 4 * s.srcBase.toNat := baseAddr_eq s.srcBase

theorem latDst_takeLatch (w : Word) (s : State) : latDst (takeLatch w s) = 4 * s.dstBase.toNat := baseAddr_eq s.dstBase

theorem latN4_takeLatch (w : Word) (s : State) : latN4 (takeLatch w s) = 4 * (s.width.toNat * s.height.toNat) := rfl

theorem latW_takeLatch_eq_zero {w : Word} {s : State} : latW (takeLatch w s) = 0 ↔ s.width = 0#16 :=
  BitVec.toNat_inj (y := 0#16)

theorem latH_takeLatch_eq_zero {w : Word} {s : State} : latH (takeLatch w s) = 0 ↔ s.height = 0#16 :=
  BitVec.toNat_inj (y := 0#16)

/-! ### Issue -/

/-- What the acceptance of `w` leaves from `s`: the word, no outcome, BUSY and the latch (40_command.md R130, R131). -/
def accepted (w : Word) (s : State) : State :=
  { s with lastCmd := w, done := false, err := false, errcode := 0#4, busy := true, lat := some (takeLatch w s) }

/-- A CMD write to an idle unit that passes the checks is accepted (40_command.md R130). -/
theorem issueCommand_accepted {w : Word} {s : State} (hidle : s.busy = false) (hcheck : checkLatch (takeLatch w s) = none)
    (hdevice : touchesDevice s (takeLatch w s) = false) : issueCommand w s = .next (accepted w s) := by
  rw [issueCommand, hidle, acceptCommand, hcheck, hdevice]
  rfl

/-- A host move whose statement writes CMD issues the word (10_state.md R29). -/
theorem step_issue {s : State} {w : Word} {ops : List HostOp} (he : nextEvent s = .hostMove)
    (hprog : s.prog = asmWr s.platform .cmd w :: ops) : step s = issueCommand w (afterMove s .host ops) := by
  rw [step_asmWr_cmd he hprog, exec_host rfl, encode_decode]
  rfl

/-! ### Completion -/

/-- The completion is not enabled while BUSY = 0 (40_command.md R134). -/
theorem completeCommand_idle {F : Latch → Image → Image} {s : State} (hidle : s.busy = false) :
    completeCommand F s = .next s := by
  simp only [completeCommand, hidle]

/-- A command that is ready completes with DONE, and its output, an image of the input's size, is a function of the latch and
the input image alone (40_command.md R134, R139). -/
theorem exec_of_ready (i : Instr) (L : Latch) : ∃ G : Image → Image, ∀ s, ReadyToComplete s L →
    exec i s = .next (finishCommand L (G (inputImage s L)) s) ∧
      (G (inputImage s L)).pixels.length = latW L * latH L := by
  obtain ⟨F, hF, hlen⟩ := exec_eq_runCommand i
  refine ⟨F L, fun s hready => ⟨?_, ?_⟩⟩
  · rw [hF, runCommand, hready.1]
    exact completeCommand_ready F hready
  · rw [inputImage_eq]
    exact hlen L _ _ _

/-! ### The identity engines -/

/-- The identity matrix picks its own channel, in units of 2^-16 (41_color_matrix.md R155). -/
theorem cmAcc_identityMatrix (p : Pixel) (c : Fin 4) : cmAcc identityMatrix p c = 65536 * channel p c := by
  fin_cases c <;> simp [cmAcc, identityMatrix]

/-- A channel in units of 2^-16 rounds to its byte (00_scope.md R11). -/
theorem pixel_of_scaled_channels (p : Pixel) : (⟨chan (65536 * channel p 0) 65536, chan (65536 * channel p 1) 65536,
    chan (65536 * channel p 2) 65536, chan (65536 * channel p 3) 65536⟩ : Pixel) = p := by
  have hscaled (v : Byte) := chan_mul_self (d := 65536) (by decide) v
  simp only [channel, hscaled]

theorem affinePixel_identityMatrix (p : Pixel) : affinePixel identityMatrix p = p := by
  simp only [affinePixel, cmAcc_identityMatrix]
  exact pixel_of_scaled_channels p

/-- The identity kernel picks the centre tap, in units of 2^-16 (42_fir_convolver.md R175). -/
theorem firAcc_identityKernel (img : Image) (x y : Nat) (c : Fin 4) :
    firAcc identityKernel img x y c = 65536 * channel (clampedAt img x y) c := by
  simp [firAcc, sumOver, kernelIndices, identityKernel, tapOffset]

/-- CM.ID on a built image (41_color_matrix.md R155). -/
theorem mapPixels_identityMatrix (w h : Nat) (f : Nat → Nat → Pixel) :
    mapPixels (affinePixel identityMatrix) (buildImage w h f) = buildImage w h f := by
  simp only [mapPixels_buildImage, affinePixel_identityMatrix]

/-- FIR.ID on a built image: no coordinate of the image is clamped (42_fir_convolver.md R171, R175). -/
theorem firImage_identityKernel (w h : Nat) (f : Nat → Nat → Pixel) :
    firImage false identityKernel (buildImage w h f) = buildImage w h f := by
  refine buildImage_congr (w := w) (h := h) fun x y hx hy => ?_
  have hcentre : clampedAt (buildImage w h f) x y = f x y := by
    rw [clampedAt_buildImage f (by omega) (by omega), clampCoord_of_lt hx, clampCoord_of_lt hy]
  have hdivisor : firDivisor false identityKernel = 65536 := rfl
  simp only [firPixel, firAcc_identityKernel, hcentre, hdivisor, pixelAt_buildImage f hx hy]
  exact congrArg (fun p : Pixel => { p with a := (f x y).a }) (pixel_of_scaled_channels (f x y))

/-! ### The output range -/

/-- Input bytes that agree make the same input image (00_scope.md R13, 20_memory.md R71). -/
theorem inputImage_eq_of_input {s t : State} {L : Latch} (h : ∀ a, inInput L a = true → unitByte s L a = unitByte t L a) :
    inputImage s L = inputImage t L := by
  rw [inputImage_eq, inputImage_eq]
  refine buildImage_congr fun x y hx hy => ?_
  have hbyte (k : Nat) (hk : k < 4) := h _ (inInput_iff.2 (pixAddr_range (b := latSrc L) hx hy hk))
  rw [inPixel, inPixel, Pixel.mk.injEq]
  exact ⟨hbyte 0 (by decide), hbyte 1 (by decide), hbyte 2 (by decide), hbyte 3 (by decide)⟩

/-- A byte inside the written pixels does not depend on the memory they are written to. -/
theorem Memory.read_writePixels_congr {m m' : Memory} {addr a : Nat} {ps : List Pixel} (hm : m.wf = true)
    (hm' : m'.wf = true) (hlo : addr ≤ a) (hhi : a < addr + 4 * ps.length) :
    (m.writePixels addr ps).read a = (m'.writePixels addr ps).read a := by
  obtain ⟨i, k, hk, rfl⟩ : ∃ i k, k < 4 ∧ a = addr + 4 * i + k :=
    ⟨(a - addr) / 4, (a - addr) % 4, Nat.mod_lt _ (by decide), by omega⟩
  have hi : i < ps.length := by omega
  rw [read_writePixels hm hi hk, read_writePixels hm' hi hk]

/-! ### The obligations -/

/-- Settles O40: both runs write the image of one function at one input image. -/
theorem outputDependsOnlyOnTheInputRange : Obligations.OutputDependsOnlyOnTheInputRange := by
  intro i s s' L hready hready' hmem hmem' hinput
  obtain ⟨G, hG⟩ := exec_of_ready i L
  obtain ⟨hexec, hlen⟩ := hG s hready
  obtain ⟨hexec', -⟩ := hG s' hready'
  rw [← inputImage_eq_of_input hinput] at hexec'
  refine ⟨_, _, hexec, hexec', rfl, rfl, fun a ha => ?_⟩
  obtain ⟨hlo, hhi⟩ := inOutput_iff.1 ha
  exact Memory.read_writePixels_congr hmem hmem' hlo (by rwa [hlen])

/-- Settles O41: the CMD write latches the command, and the unit's move completes it from that latch. -/
theorem issueThenComplete : Obligations.IssueThenComplete := by
  intro i s ops rest hwf _ hidle hprog hsched hcheck hadmitted hdevice
  have hissue : step s = .next (accepted (encode i) (afterMove s .host ops)) :=
    (step_issue (by rw [nextEvent, hsched]) hprog).trans (issueCommand_accepted hidle hcheck hdevice)
  have hunit : nextEvent (accepted (encode i) (afterMove s .host ops)) = .unitMove := by
    rw [nextEvent, accepted, afterMove, hsched]
    rfl
  obtain ⟨G, hG⟩ := exec_of_ready i (takeLatch (encode i) s)
  obtain ⟨hexec, hlen⟩ := hG (afterMove (accepted (encode i) (afterMove s .host ops)) .unit ops)
    ⟨rfl, rfl, rfl, hadmitted, hdevice⟩
  have hcomplete := step_unit (L := takeLatch (encode i) s) hunit rfl rfl
  rw [takeLatch_cmd, decode_encode hwf] at hcomplete
  exact ⟨_, _, hissue, rfl, rfl, hcomplete.trans hexec, rfl, rfl, rfl, rfl, rfl, rfl,
    congrArg (fun sched => sched.tail.tail) hsched, fun a ha => read_finishCommand_of_outside hlen ha⟩

/-- Settles O28: each engine is the identity on the input image. -/
theorem identityCommandsCopyTheInput : Obligations.IdentityCommandsCopyTheInput := by
  intro i s L hi hready hmem
  have hcopy := copyImage_buildImage (latW L) (latH L) (inPixel s L)
  rcases hi with ⟨_, _, rfl⟩ | ⟨_, rfl⟩ | ⟨_, rfl⟩ | ⟨_, _, rfl⟩ | ⟨_, _, rfl⟩ | ⟨_, _, rfl⟩ | ⟨_, _, rfl⟩ | ⟨_, _, _, rfl⟩ |
    ⟨_, _, _, rfl⟩
  case inr.inl => exact runCommand_built hready hmem (mapPixels_identityMatrix _ _ _)
  case inr.inr.inl => exact runCommand_built hready hmem (firImage_identityKernel _ _ _)
  all_goals exact runCommand_built hready hmem hcopy

/-- Settles O22: the hypotheses are the checks of R132 on the live registers. -/
theorem commandIsAccepted : Obligations.CommandIsAccepted := by
  intro i s hturn hidle hwidth hheight hlen hsrc hdst hdisjoint hdevice
  have hcheck : checkLatch (takeLatch (encode i) s) = none := by
    rw [checkLatch_eq_none, latSrc_takeLatch, latDst_takeLatch, latN4_takeLatch]
    exact ⟨mt latW_takeLatch_eq_zero.1 hwidth, mt latH_takeLatch_eq_zero.1 hheight, hlen, hsrc, hdst, hdisjoint⟩
  rw [exec_host hturn, issueCommand_accepted hidle hcheck hdevice]
  rfl

/-- Settles O7: the unit moves when `sched` names it, and when `sched` names no event and BUSY = 1. -/
theorem stepRunsLatchedCommand : Obligations.StepRunsLatchedCommand := by
  refine ⟨fun s L rest hbusy hlat hsched => ?_, fun s L hbusy hlat hsched => ?_⟩
  · rw [step_unit (by rw [nextEvent, hsched]) hbusy hlat, hsched]
    rfl
  · rw [step_unit (by rw [nextEvent, hsched, hbusy]; rfl) hbusy hlat, hsched]
    rfl

/-- Settles O26: on the host's turn `exec` is the CMD write, which BUSY = 1 drops. -/
theorem busyCommandIsDropped : Obligations.BusyCommandIsDropped := by
  intro i s hturn hbusy
  rw [exec_host hturn, issueCommand, if_pos hbusy]

/-- Settles O27: on the unit's turn `exec` is the completion of the command's engine, which BUSY = 0 disables. -/
theorem idleUnitDoesNothing : Obligations.IdleUnitDoesNothing := by
  intro i s hturn hidle
  obtain ⟨F, hF, -⟩ := exec_eq_runCommand i
  rw [hF, runCommand, hturn]
  exact completeCommand_idle hidle

end Sys2Proof.Machine
end

section
/-! PROOFS. The color matrix engine of 41_color_matrix.md: the completion of an engine that works pixel by pixel, the luminance
and the stages on it (R152, R153, R156, R157), the latched matrix (R151, R158), and the widths of the engines' accumulators
(R151, 42_fir_convolver.md R172, 43_separable_blur.md R193). -/

namespace Sys2Proof.Machine

open Sys2Proof.Safety

/-! ### Engines that work pixel by pixel -/

/-- A ready command whose engine applies one function to every pixel completes with that function of the input pixels
(40_command.md R134). -/
theorem runCommand_mapPixels {w : Word} {G : Latch → Pixel → Pixel} {s : State} {L : Latch} (hready : ReadyToComplete s L)
    (hmem : s.mem.wf = true) : ∃ t, runCommand w (fun L img => mapPixels (G L) img) s = .next t ∧
      CompletedWith s t L fun x y => G L (inPixel s L x y) :=
  runCommand_built hready hmem (mapPixels_buildImage _ _ _ _)

/-! ### The luminance -/

/-- The luminance accumulator is a natural number (41_color_matrix.md R152). -/
theorem luminance_eq_natCast (p : Pixel) :
    luminance p = ((13959 * p.r.toNat + 46858 * p.g.toNat + 4719 * p.b.toNat : Nat) : Int) := by
  push_cast
  rfl

/-- The weights of LUMA_W sum to 65536, so a neutral grey is its own luminance in units of 2^-16. -/
theorem luminance_neutral (v a : Byte) : luminance ⟨v, v, v, a⟩ = 65536 * (v.toNat : Int) := by
  rw [luminance_eq_natCast]
  push_cast
  ring

/-- The threshold of the luminance is a comparison of natural numbers (41_color_matrix.md R153). -/
theorem threshold_luminance (p : Pixel) : threshold (luminance p) =
    if 13959 * p.r.toNat + 46858 * p.g.toNat + 4719 * p.b.toNat ≥ 8388608 then 255#8 else 0#8 := by
  rw [threshold, luminance_eq_natCast]
  exact if_congr (by omega) rfl rfl

/-- The threshold of a byte in units of 2^-16 compares the byte with 128 (41_color_matrix.md R153). -/
theorem threshold_scaled_byte (v : Byte) : threshold (65536 * (v.toNat : Int)) = if 128 ≤ v.toNat then 255#8 else 0#8 :=
  if_congr (by omega) rfl rfl

theorem threshold_eq_zero_or (l : Int) : threshold l = 0#8 ∨ threshold l = 255#8 := by
  rw [threshold]
  split_ifs
  · exact .inr rfl
  · exact .inl rfl

/-- CM.GRAY keeps a neutral grey (41_color_matrix.md R156). -/
theorem grayPixel_neutral (v a : Byte) : grayPixel ⟨v, v, v, a⟩ = ⟨v, v, v, a⟩ := by
  rw [grayPixel, luminance_neutral, chan_mul_self (by decide)]

/-- CM.BIN keeps a grey that is black or white (41_color_matrix.md R157). -/
theorem binaryPixel_of_extreme {t : Byte} (ht : t = 0#8 ∨ t = 255#8) (a : Byte) : binaryPixel ⟨t, t, t, a⟩ = ⟨t, t, t, a⟩ := by
  rw [binaryPixel, luminance_neutral, threshold_scaled_byte]
  rcases ht with rfl | rfl <;> rfl

/-! ### Matrices -/

/-- A colour row of the matrix G is the luminance (41_color_matrix.md R152). -/
theorem cmAcc_grayMatrix_colour (p : Pixel) {c : Fin 4} (hc : c.val ≠ 3) : cmAcc grayMatrix p c = luminance p := by
  simp [cmAcc, grayMatrix, hc, luminance]

/-- The alpha row of the matrix G picks alpha, in units of 2^-16 (41_color_matrix.md R152). -/
theorem cmAcc_grayMatrix_alpha (p : Pixel) : cmAcc grayMatrix p 3 = 65536 * (p.a.toNat : Int) := by
  simp [cmAcc, grayMatrix, channel]

/-- The affine stage of the matrix G is CM.GRAY (41_color_matrix.md R156). -/
theorem affinePixel_grayMatrix (p : Pixel) : affinePixel grayMatrix p = grayPixel p := by
  rw [affinePixel, cmAcc_grayMatrix_colour p (by decide), cmAcc_grayMatrix_colour p (by decide),
    cmAcc_grayMatrix_colour p (by decide), cmAcc_grayMatrix_alpha, chan_mul_self (by decide)]
  rfl

/-- Row `c` of the latched matrix is CM_COEF[5c .. 5c+4] on (R, G, B, A, 1) (41_color_matrix.md R151, R158). -/
theorem cmAcc_latMatrix (L : Latch) (p : Pixel) (c : Fin 4) : cmAcc (latMatrix L) p c =
    (L.cmCoef[5 * c.val]).toInt * p.r.toNat + (L.cmCoef[5 * c.val + 1]).toInt * p.g.toNat +
      (L.cmCoef[5 * c.val + 2]).toInt * p.b.toNat + (L.cmCoef[5 * c.val + 3]).toInt * p.a.toNat +
      (L.cmCoef[5 * c.val + 4]).toInt := by
  rw [cmAcc, mul_one]
  rfl

/-! ### Widths of the accumulators -/

/-- A 32-bit coefficient is at most 2^31 in magnitude. -/
theorem abs_s32_le (w : Word) : |s32 w| ≤ 2 ^ 31 :=
  abs_le.2 ⟨BitVec.le_toInt w, (BitVec.toInt_lt (x := w)).le⟩

theorem abs_s32_mul_channel_le (w : Word) (p : Pixel) (c : Fin 4) : |s32 w * channel p c| ≤ 2 ^ 31 * 255 := by
  obtain ⟨hlo, hhi⟩ := channel_bounds p c
  rw [abs_mul, abs_of_nonneg hlo]
  exact mul_le_mul (abs_s32_le w) hhi hlo (by decide)

/-- A sum of values bounded in magnitude. -/
theorem abs_sumOver_le {α : Type} {f : α → Int} {B : Int} (hf : ∀ a, |f a| ≤ B) (l : List α) :
    |sumOver l f| ≤ l.length * B := by
  induction l with
  | nil => simp [sumOver]
  | cons a l ih =>
    have hcons : sumOver (a :: l) f = f a + sumOver l f := List.sum_cons
    calc |sumOver (a :: l) f|
        ≤ |f a| + |sumOver l f| := hcons ▸ abs_add_le _ _
      _ ≤ B + l.length * B := add_le_add (hf a) ih
      _ = (a :: l).length * B := by rw [List.length_cons]; push_cast; ring

/-- A sum over the nine entries of a kernel (42_fir_convolver.md R170). -/
theorem abs_sumOver_kernelIndices_le {f : Fin 3 → Fin 3 → Int} {B : Int} (hf : ∀ i j, |f i j| ≤ B) :
    |sumOver kernelIndices fun i => sumOver kernelIndices fun j => f i j| ≤ 3 * (3 * B) :=
  abs_sumOver_le (fun i => abs_sumOver_le (hf i) kernelIndices) kernelIndices

/-- The matrix accumulator: four coefficients times a channel, and one alone (41_color_matrix.md R151). -/
theorem abs_cmAcc_latMatrix_lt (L : Latch) (p : Pixel) (c : Fin 4) : |cmAcc (latMatrix L) p c| < 2 ^ 42 := by
  have hterm (k : Fin 5) (j : Fin 4) : |latMatrix L c k * channel p j| ≤ 2 ^ 31 * 255 := abs_s32_mul_channel_le _ p j
  have hlast : |latMatrix L c 4 * 1| ≤ 2 ^ 31 := by rw [mul_one]; exact abs_s32_le _
  have hred := abs_le.1 (hterm 0 0)
  have hgreen := abs_le.1 (hterm 1 1)
  have hblue := abs_le.1 (hterm 2 2)
  have halpha := abs_le.1 (hterm 3 3)
  have hconst := abs_le.1 hlast
  rw [cmAcc, abs_lt]
  omega

/-- The convolution accumulator: nine coefficients times a channel (42_fir_convolver.md R172). -/
theorem abs_firAcc_latKernel_lt (L : Latch) (img : Image) (x y : Nat) (c : Fin 4) :
    |firAcc (latKernel L) img x y c| < 2 ^ 43 :=
  (abs_sumOver_kernelIndices_le fun _ _ => abs_s32_mul_channel_le _ _ c).trans_lt (by decide)

/-- The kernel sum: nine coefficients (42_fir_convolver.md R170). -/
theorem abs_kernelSum_latKernel_lt (L : Latch) : |kernelSum (latKernel L)| < 2 ^ 35 :=
  (abs_sumOver_kernelIndices_le fun _ _ => abs_s32_le _).trans_lt (by decide)

/-- The vertical blur accumulator is at most 255 times the square of the weights' total 4^n (43_separable_blur.md R193). -/
theorem vPass_range (n : Nat) (img : Image) (x y : Nat) (c : Fin 4) (hn : n ≤ 16) :
    0 ≤ vPass n img x y c ∧ vPass n img x y c < 2 ^ 72 := by
  obtain ⟨hlo, hhi⟩ := vPass_between (n := n) (x := x) (y := y) fun X Y => channel_bounds (clampedAt img X Y) c
  have htotal : (4 : Int) ^ n ≤ 4 ^ 16 := pow_le_pow_right₀ (by decide) hn
  have hsquare : (4 : Int) ^ n * 4 ^ n ≤ 4 ^ 16 * 4 ^ 16 := mul_le_mul htotal htotal (by positivity) (by decide)
  exact ⟨by rwa [zero_mul] at hlo, by omega⟩

/-! ### The obligations -/

/-- Settles O29: the engine's `y` is the rounded luminance. -/
theorem grayscaleCompletes : Obligations.GrayscaleCompletes :=
  fun _ _ _ hready hmem => runCommand_mapPixels (G := fun _ => grayPixel) hready hmem

/-- Settles O30: the engine thresholds the unrounded luminance. -/
theorem binaryThresholdCompletes : Obligations.BinaryThresholdCompletes := by
  intro ign s L hready hmem
  obtain ⟨t, hexec, hdone⟩ := runCommand_mapPixels (w := encode (.cmBin ign)) (G := fun _ => binaryPixel) hready hmem
  refine ⟨t, hexec, ?_⟩
  simp only [binaryPixel, threshold_luminance] at hdone
  exact hdone

/-- Settles O31: the four rows of the latched matrix. -/
theorem userMatrixCompletes : Obligations.UserMatrixCompletes := by
  intro ign s L hready hmem
  obtain ⟨t, hexec, hdone⟩ := runCommand_mapPixels (w := encode (.cmUser ign))
    (G := fun L => affinePixel (latMatrix L)) hready hmem
  refine ⟨t, hexec, ?_⟩
  simp only [affinePixel, cmAcc_latMatrix] at hdone
  exact hdone

/-- Settles O52: the weights sum to 65536, and G has the luminance in its colour rows. -/
theorem grayscaleIsNeutral : Obligations.GrayscaleIsNeutral :=
  ⟨fun _ => ⟨rfl, rfl, rfl⟩, grayPixel_neutral, affinePixel_grayMatrix⟩

/-- Settles O53: an output pixel is a black or white grey, which CM.BIN keeps. -/
theorem binaryThresholdIsIdempotent : Obligations.BinaryThresholdIsIdempotent := fun p =>
  have hextreme := threshold_eq_zero_or (luminance p)
  ⟨binaryPixel_of_extreme hextreme p.a, rfl, rfl, hextreme, rfl⟩

/-- Settles O59: one bound for each accumulator. -/
theorem accumulatorBounds : Obligations.AccumulatorBounds :=
  ⟨abs_cmAcc_latMatrix_lt, abs_firAcc_latKernel_lt, abs_kernelSum_latKernel_lt, vPass_range⟩

end Sys2Proof.Machine
end

section
/-! PROOFS. The 3x3 convolver of 42_fir_convolver.md: its sums as nine written-out taps (R170, R172), the completion of a command
that convolves (R171 to R174), the kernels of FIR.BLUR, FIR.EDGE and FIR.USER (R176 to R178), and uniform images (R180). -/

namespace Sys2Proof.Machine

open Sys2Proof.Safety

/-! ### Nine taps -/

/-- The weighted sum over the kernel's rows and columns, tap by tap (42_fir_convolver.md R170). -/
theorem sumOver_kernelIndices (K : Fin 3 → Fin 3 → Int) (f : Int → Int → Int) :
    (sumOver kernelIndices fun i => sumOver kernelIndices fun j => K i j * f (tapOffset i) (tapOffset j)) = nineTaps K f := by
  have hleft : tapOffset 0 = -1 := rfl
  have hcentre : tapOffset 1 = 0 := rfl
  have hright : tapOffset 2 = 1 := rfl
  simp only [sumOver, kernelIndices, List.map_cons, List.map_nil, List.sum_cons, List.sum_nil, hleft, hcentre, hright,
    nineTaps]
  ring

/-- The convolution accumulator, tap by tap (42_fir_convolver.md R172). -/
theorem firAcc_eq_nineTaps (K : Fin 3 → Fin 3 → Int) (img : Image) (x y : Nat) (c : Fin 4) :
    firAcc K img x y c = nineTaps K fun dy dx => channel (clampedAt img (x + dx) (y + dy)) c :=
  sumOver_kernelIndices K fun dy dx => channel (clampedAt img (x + dx) (y + dy)) c

/-- The kernel's sum S is what nine taps make of a constant 1 (42_fir_convolver.md R170). -/
theorem kernelSum_eq_nineTaps (K : Fin 3 → Fin 3 → Int) : kernelSum K = nineTaps K fun _ _ => 1 := by
  rw [← sumOver_kernelIndices]
  simp only [mul_one]
  rfl

/-- Nine taps on a constant are the kernel's sum times the constant. -/
theorem nineTaps_const (K : Fin 3 → Fin 3 → Int) (v : Int) : (nineTaps K fun _ _ => v) = kernelSum K * v := by
  rw [kernelSum_eq_nineTaps, nineTaps, nineTaps]
  ring

/-! ### The divisor -/

/-- With NORM = 1 and S ≠ 0 the divisor is S (42_fir_convolver.md R173). -/
theorem firDivisor_norm {K : Fin 3 → Fin 3 → Int} (hS : kernelSum K ≠ 0) : firDivisor true K = kernelSum K :=
  if_pos ⟨rfl, hS⟩

/-! ### Commands that convolve -/

/-- The edge-clamped neighbour in the input image of a command (42_fir_convolver.md R171). -/
theorem clampedAt_input (s : State) {L : Latch} (hw : 0 < latW L) (hh : 0 < latH L) (x y : Int) :
    clampedAt (buildImage (latW L) (latH L) (inPixel s L)) x y = nearPixel s L x y :=
  clampedAt_buildImage (inPixel s L) hw hh x y

/-- The convolved input image of a command, pixel by pixel (42_fir_convolver.md R172 to R174). -/
theorem firImage_input (norm : Bool) (K : Fin 3 → Fin 3 → Int) (s : State) (L : Latch) :
    firImage norm K (buildImage (latW L) (latH L) (inPixel s L)) =
      buildImage (latW L) (latH L) (convolved s L K (firDivisor norm K)) := by
  refine buildImage_congr (w := latW L) (h := latH L) fun x y hx hy => ?_
  simp only [firPixel, firAcc_eq_nineTaps, clampedAt_input s (Nat.zero_lt_of_lt hx) (Nat.zero_lt_of_lt hy),
    pixelAt_buildImage _ hx hy]
  rfl

/-- A ready command whose engine is a convolution completes with the nine-tap sums over edge-clamped neighbours
(42_fir_convolver.md R171 to R174, 40_command.md R134). -/
theorem runCommand_firImage {w : Word} {norm : Latch → Bool} {K : Latch → Fin 3 → Fin 3 → Int} {s : State} {L : Latch}
    (hready : ReadyToComplete s L) (hmem : s.mem.wf = true) :
    ∃ t, runCommand w (fun L img => firImage (norm L) (K L) img) s = .next t ∧
      CompletedWith s t L (convolved s L (K L) (firDivisor (norm L) (K L))) :=
  runCommand_built hready hmem (firImage_input _ _ s L)

/-! ### Kernels -/

/-- The taps of BLUR3_K: twice the corner's for a tap on one middle line, four times for the centre (42_fir_convolver.md
R177). -/
theorem blur3Kernel_eq : blur3Kernel = fun i j =>
    if i.val = 1 ∧ j.val = 1 then 131072 else if i.val = 1 ∨ j.val = 1 then 65536 else 32768 := by
  funext i j
  by_cases hi : i.val = 1 <;> by_cases hj : j.val = 1 <;> simp [blur3Kernel, blur3Axis, hi, hj]

/-- FIR.BLUR divides by the sum of its taps (42_fir_convolver.md R177). -/
theorem firDivisor_blur3Kernel : firDivisor true blur3Kernel = 524288 := by decide

/-! ### Uniform images -/

/-- Every neighbour in a uniform image is its one pixel, so the accumulator is S times the channel (42_fir_convolver.md R180). -/
theorem firAcc_uniform {w h : Nat} (hw : 0 < w) (hh : 0 < h) (K : Fin 3 → Fin 3 → Int) (p : Pixel) (x y : Nat) (c : Fin 4) :
    firAcc K (buildImage w h fun _ _ => p) x y c = kernelSum K * channel p c := by
  simp only [firAcc_eq_nineTaps, clampedAt_buildImage _ hw hh, nineTaps_const]

/-- A normalized kernel keeps a pixel of a uniform image (42_fir_convolver.md R180). -/
theorem firPixel_uniform {w h x y : Nat} (hx : x < w) (hy : y < h) {K : Fin 3 → Fin 3 → Int} (hS : kernelSum K ≠ 0)
    (p : Pixel) : firPixel true K (buildImage w h fun _ _ => p) x y = p := by
  simp only [firPixel, firDivisor_norm hS, firAcc_uniform (Nat.zero_lt_of_lt hx) (Nat.zero_lt_of_lt hy),
    pixelAt_buildImage _ hx hy, channel, chan_mul_self hS]

/-! ### The obligations -/

/-- Settles O32: the taps of BLUR3_K, whose sum is 524288. -/
theorem firBlurCompletes : Obligations.FirBlurCompletes := by
  intro ign s L hready hmem
  obtain ⟨t, hexec, hdone⟩ := runCommand_firImage (w := encode (.firBlur ign)) (norm := fun _ => true)
    (K := fun _ => blur3Kernel) hready hmem
  rw [firDivisor_blur3Kernel, blur3Kernel_eq] at hdone
  exact ⟨t, hexec, hdone⟩

/-- Settles O33: the edge kernel without normalization. -/
theorem firEdgeCompletes : Obligations.FirEdgeCompletes :=
  fun _ _ _ hready hmem => runCommand_firImage (norm := fun _ => false) (K := fun _ => edgeKernel) hready hmem

/-- Settles O34: the latched kernel, whose sum S in nine taps decides the divisor. -/
theorem firUserCompletes : Obligations.FirUserCompletes := by
  intro ign s L hready hmem
  obtain ⟨t, hexec, hdone⟩ := runCommand_firImage (w := encode (.firUser ign)) (norm := Latch.firNorm) (K := latKernel)
    hready hmem
  rw [firDivisor, kernelSum_eq_nineTaps] at hdone
  exact ⟨t, hexec, hdone⟩

/-- Settles O54: each pixel comes back from S times its channels, rounded over S. -/
theorem uniformImageIsUnchangedByFir : Obligations.UniformImageIsUnchangedByFir :=
  fun _ _ _ p hS => buildImage_congr fun _ _ hx hy => firPixel_uniform hx hy hS p

end Sys2Proof.Machine
end

section
/-! PROOFS. The separable blur of 43_separable_blur.md: the half-width of a radius (R191), the binomial weights (R192), the two
passes and their range (R193), the completion of BLUR (R194, R195), and its equality with FIR.BLUR at half-width 1 (R196). -/

namespace Sys2Proof.Machine

open Sys2Proof.Safety

/-! ### The half-width -/

/-- A radius that is not positive gives no taps beside the centre (43_separable_blur.md R191). -/
theorem halfWidth_of_nonpos {r : Int} (hr : r ≤ 0) : halfWidth r = 0 := if_pos hr

theorem halfWidth_of_pos {r : Int} (hr : 0 < r) : halfWidth r = min ((r + 65535) / 65536).toNat 16 := if_neg hr.not_ge

/-- The half-width saturates at BLUR_NMAX (43_separable_blur.md R191). -/
theorem halfWidth_le (r : Int) : halfWidth r ≤ 16 := by
  rw [halfWidth]
  split_ifs
  · exact Nat.zero_le _
  · exact min_le_right _ _

/-- Below the saturation, the half-width is the least number of pixels that is not below the radius (43_separable_blur.md
R191). -/
theorem halfWidth_le_iff {k : Nat} (hk : k < 16) (r : Int) : halfWidth r ≤ k ↔ r ≤ (k : Int) * 65536 := by
  rcases le_or_gt r 0 with hr | hr
  · rw [halfWidth_of_nonpos hr]
    omega
  · rw [halfWidth_of_pos hr]
    omega

theorem halfWidth_eq_zero_iff (r : Int) : halfWidth r = 0 ↔ r ≤ 0 := by
  rw [← Nat.le_zero, halfWidth_le_iff (by decide), Nat.cast_zero, zero_mul]

/-- Each interval of one pixel has its own half-width (43_separable_blur.md R191). -/
theorem halfWidth_eq_succ {r : Int} {k : Nat} (hk : k < 16) (hlo : (k : Int) * 65536 < r)
    (hhi : r ≤ ((k : Int) + 1) * 65536) : halfWidth r = k + 1 := by
  have hgt : ¬ halfWidth r ≤ k := mt (halfWidth_le_iff hk r).1 hlo.not_ge
  have hle : halfWidth r ≤ k + 1 := by
    rcases Nat.lt_or_ge (k + 1) 16 with hsucc | hmax
    · exact (halfWidth_le_iff hsucc r).2 (by push_cast; exact hhi)
    · exact (halfWidth_le r).trans hmax
  omega

theorem halfWidth_saturated {r : Int} (hr : 15 * 65536 < r) : halfWidth r = 16 := by
  have hgt : ¬ halfWidth r ≤ 15 := mt (halfWidth_le_iff (by decide) r).1 (not_le.2 hr)
  have hle := halfWidth_le r
  omega

/-- A larger radius has at least as many taps (43_separable_blur.md R191). -/
theorem monotone_halfWidth : Monotone halfWidth := by
  intro r r' h
  rcases lt_or_ge (halfWidth r') 16 with hlt | hge
  · exact (halfWidth_le_iff hlt r).2 (h.trans ((halfWidth_le_iff hlt r').1 le_rfl))
  · exact (halfWidth_le r).trans hge

/-! ### The weights -/

/-- A weight is the binomial coefficient of its tap's number (43_separable_blur.md R192). -/
theorem blurWeight_eq_choose {n : Nat} {i : Int} (hi : i ≤ n) :
    blurWeight n i = ((2 * n).choose ((n : Int) + i).toNat : Int) := by
  rw [blurWeight, binomial_eq_choose (by omega)]

theorem blurWeight_pos {n : Nat} {i : Int} (hi : i ≤ n) : 0 < blurWeight n i := by
  rw [blurWeight_eq_choose hi]
  exact_mod_cast Nat.choose_pos (by omega)

/-- The weights are symmetric about the centre (43_separable_blur.md R192). -/
theorem blurWeight_neg {n : Nat} {i : Int} (hlo : -n ≤ i) (hhi : i ≤ n) : blurWeight n (-i) = blurWeight n i := by
  have hmirror : ((n : Int) + -i).toNat = 2 * n - ((n : Int) + i).toNat := by omega
  rw [blurWeight_eq_choose (by omega), blurWeight_eq_choose hhi, hmirror, Nat.choose_symm (by omega)]

/-- The weights fall from the centre outwards: on the mirror side the binomial coefficients rise to the middle
(43_separable_blur.md R192). -/
theorem blurWeight_succ_le {n : Nat} {i : Int} (hlo : 0 ≤ i) (hhi : i < n) : blurWeight n (i + 1) ≤ blurWeight n i := by
  have hnext : ((n : Int) + -i).toNat = ((n : Int) + -(i + 1)).toNat + 1 := by omega
  rw [← blurWeight_neg (i := i + 1) (by omega) (by omega), ← blurWeight_neg (i := i) (by omega) (by omega),
    blurWeight_eq_choose (by omega), blurWeight_eq_choose (by omega), hnext]
  exact_mod_cast Nat.choose_le_succ_of_lt_half_left (by omega)

/-! ### The blurred pixel -/

/-- A colour channel of a blurred pixel, rounded once over the square of the weights' total (43_separable_blur.md R193). -/
theorem channel_blurPixel (n : Nat) (img : Image) (x y : Nat) {c : Fin 4} (hc : c ≠ 3) :
    channel (blurPixel n img x y) c = clamp8 (rdiv (vPass n img x y c) (4 ^ n * 4 ^ n)) := by
  rw [← chan_toNat, ← blurTotal_eq]
  match c, hc with
  | 0, _ | 1, _ | 2, _ => rfl
  | 3, hc => exact absurd rfl hc

/-- The clamp of R11 keeps bounds that some byte meets. -/
theorem clamp8_between {v lo hi : Int} (hv : lo ≤ v ∧ v ≤ hi) (hlo : lo ≤ 255) (hhi : 0 ≤ hi) :
    lo ≤ clamp8 v ∧ clamp8 v ≤ hi := by
  rw [clamp8]
  omega

/-- A blurred colour channel lies between any bounds that hold over the input (43_separable_blur.md R194). -/
theorem channel_blurPixel_between {n : Nat} {img : Image} {lo hi : Int} {c : Fin 4} (hc : c ≠ 3)
    (hbounds : ∀ x y, x < img.width → y < img.height → lo ≤ channel (pixelAt img x y) c ∧ channel (pixelAt img x y) c ≤ hi)
    {x y : Nat} (hx : x < img.width) (hy : y < img.height) :
    lo ≤ channel (blurPixel n img x y) c ∧ channel (blurPixel n img x y) c ≤ hi := by
  obtain ⟨hsumlo, hsumhi⟩ := vPass_between (n := n) (img := img) (c := c) (x := x)
    (y := y) fun X Y => hbounds _ _ (clampCoord_lt (Nat.zero_lt_of_lt hx) X) (clampCoord_lt (Nat.zero_lt_of_lt hy) Y)
  obtain ⟨hlo, hhi⟩ := hbounds x y hx hy
  obtain ⟨hzero, htop⟩ := channel_bounds (pixelAt img x y) c
  rw [channel_blurPixel n img x y hc]
  exact clamp8_between (rdiv_between (by positivity) hsumlo hsumhi) (hlo.trans htop) (hzero.trans hhi)

/-! ### Uniform images -/

/-- Both passes over a uniform image scale its one pixel by the total of each axis (43_separable_blur.md R194). -/
theorem vPass_uniform {w h : Nat} (hw : 0 < w) (hh : 0 < h) (n : Nat) (p : Pixel) (x y : Nat) (c : Fin 4) :
    vPass n (buildImage w h fun _ _ => p) x y c = 4 ^ n * 4 ^ n * channel p c := by
  have hpixel (X Y : Int) : clampedAt (buildImage w h fun _ _ => p) X Y = p := clampedAt_buildImage _ hw hh X Y
  obtain ⟨hlo, hhi⟩ := vPass_between (n := n) (img := buildImage w h fun _ _ => p) (c := c) (lo := channel p c)
    (hi := channel p c) (x := x) (y := y) fun X Y => by rw [hpixel]; exact ⟨le_rfl, le_rfl⟩
  rw [mul_comm]
  exact le_antisymm hhi hlo

theorem blurPixel_uniform {w h x y : Nat} (hx : x < w) (hy : y < h) (n : Nat) (p : Pixel) :
    blurPixel n (buildImage w h fun _ _ => p) x y = p := by
  have htotal : (4 : Int) ^ n * 4 ^ n ≠ 0 := by positivity
  simp only [blurPixel, blurTotal_eq, vPass_uniform (Nat.zero_lt_of_lt hx) (Nat.zero_lt_of_lt hy), channel,
    chan_mul_self htotal, pixelAt_buildImage _ hx hy]

/-! ### The blurred image -/

/-- With no taps beside the centre the blur is the identity copy (43_separable_blur.md R194). -/
theorem blurImage_zero (img : Image) : blurImage 0 img = copyImage img := rfl

theorem blurImage_of_ne_zero {n : Nat} (hn : n ≠ 0) (img : Image) :
    blurImage n img = buildImage img.width img.height (blurPixel n img) := if_neg hn

/-- A uniform image is unchanged (43_separable_blur.md R194). -/
theorem blurImage_uniform (n w h : Nat) (p : Pixel) :
    blurImage n (buildImage w h fun _ _ => p) = buildImage w h fun _ _ => p := by
  rcases eq_or_ne n 0 with rfl | hn
  · exact copyImage_buildImage w h _
  · rw [blurImage_of_ne_zero hn]
    exact buildImage_congr fun x y hx hy => blurPixel_uniform hx hy n p

/-! ### Half-width 1 -/

/-- The taps of half-width 1 weigh 1, 2, 1 (43_separable_blur.md R192). -/
theorem sum_weights_one (f : Int → Int) :
    sumOver (blurTaps 1) (fun j => blurWeight 1 j * f j) = f (-1) + 2 * f 0 + f 1 := by
  rw [sum_weights]
  simp [Finset.sum_range_succ]

/-- BLUR3_K is 32768 times the products of the weights 1, 2, 1 (43_separable_blur.md R196). -/
theorem firAcc_blur3Kernel (img : Image) (x y : Nat) (c : Fin 4) :
    firAcc blur3Kernel img x y c = 32768 * vPass 1 img x y c := by
  have hrow (i : Int) : hPass 1 img x (clampCoord img.height ((y : Int) + i)) c =
      channel (clampedAt img (x + -1) (y + i)) c + 2 * channel (clampedAt img (x + 0) (y + i)) c +
        channel (clampedAt img (x + 1) (y + i)) c := sum_weights_one _
  rw [firAcc_eq_nineTaps, nineTaps, vPass, sum_weights_one, hrow, hrow, hrow]
  have hleft : blur3Axis 0 = 1 := rfl
  have hcentre : blur3Axis 1 = 2 := rfl
  have hright : blur3Axis 2 = 1 := rfl
  simp only [blur3Kernel, hleft, hcentre, hright]
  ring

/-- The factor 32768 of BLUR3_K stands in the numerator and in the divisor (43_separable_blur.md R196). -/
theorem chan_firAcc_blur3Kernel (img : Image) (x y : Nat) (c : Fin 4) :
    chan (firAcc blur3Kernel img x y c) (firDivisor true blur3Kernel) =
      chan (vPass 1 img x y c) (blurTotal 1 * blurTotal 1) := by
  have hdivisor : firDivisor true blur3Kernel = 32768 * (blurTotal 1 * blurTotal 1) := by
    rw [firDivisor_blur3Kernel, blurTotal_eq]
    rfl
  rw [firAcc_blur3Kernel, hdivisor, chan, chan, rdiv_mul_mul (by decide) (by rw [blurTotal_eq]; decide)]

/-! ### The completion -/

/-- The output pixel of BLUR at a half-width above 0 (43_separable_blur.md R193, R194). -/
def binomialPixel (s : State) (L : Latch) (n x y : Nat) : Pixel :=
  { r := chan (binomialSum s L n x y 0) (4 ^ n * 4 ^ n)
    g := chan (binomialSum s L n x y 1) (4 ^ n * 4 ^ n)
    b := chan (binomialSum s L n x y 2) (4 ^ n * 4 ^ n)
    a := (inPixel s L x y).a }

/-- The blurred input image of a command, pixel by pixel (43_separable_blur.md R193). -/
theorem blurImage_input {n : Nat} (hn : n ≠ 0) (s : State) (L : Latch) :
    blurImage n (buildImage (latW L) (latH L) (inPixel s L)) = buildImage (latW L) (latH L) (binomialPixel s L n) := by
  rw [blurImage_of_ne_zero hn]
  refine buildImage_congr (w := latW L) (h := latH L) fun x y hx hy => ?_
  simp only [blurPixel, vPass_buildImage _ (Nat.zero_lt_of_lt hx) (Nat.zero_lt_of_lt hy), blurTotal_eq,
    pixelAt_buildImage _ hx hy]
  rfl

/-- BLUR completes with the image that the blur at the latched radius gives (43_separable_blur.md R194, 40_command.md R134). -/
theorem exec_blur_completes {s : State} {L : Latch} {f : Nat → Nat → Pixel} (sel : BitVec 4) (ign : BitVec 24)
    (hready : ReadyToComplete s L) (hmem : s.mem.wf = true)
    (himage : blurImage (halfWidth (latRadius L)) (buildImage (latW L) (latH L) (inPixel s L)) =
      buildImage (latW L) (latH L) f) :
    ∃ t, exec (.blur sel ign) s = .next t ∧ CompletedWith s t L f :=
  runCommand_built (F := fun L img => blurImage (halfWidth (latRadius L)) img) hready hmem himage

/-! ### The obligations -/

/-- Settles O35: the half-width of the latched radius is 0, or the two passes are the direct 2-D sum. -/
theorem separableBlurCompletes : Obligations.SeparableBlurCompletes := by
  intro sel ign s L hready hmem
  rcases le_or_gt L.blurRadius.toInt 0 with hr | hr
  · have hn : halfWidth (latRadius L) = 0 := halfWidth_of_nonpos hr
    obtain ⟨t, hexec, hdone⟩ := exec_blur_completes (f := inPixel s L) sel ign hready hmem
      (by rw [hn, blurImage_zero, copyImage_buildImage])
    exact ⟨t, hexec, fun _ => hdone, fun hpos => absurd hpos hr.not_gt⟩
  · have hn : halfWidth (latRadius L) ≠ 0 := mt (halfWidth_eq_zero_iff _).1 hr.not_ge
    obtain ⟨t, hexec, hdone⟩ := exec_blur_completes sel ign hready hmem (blurImage_input hn s L)
    rw [latRadius, s32, halfWidth_of_pos hr] at hdone
    exact ⟨t, hexec, fun hnonpos => absurd hr hnonpos.not_gt, fun _ => hdone⟩

/-- Settles O55: the weights are nonnegative and both passes divide by their total. -/
theorem blurStaysInTheInputRange : Obligations.BlurStaysInTheInputRange :=
  ⟨blurImage_uniform, fun _ _ _ _ _ _ hc hbounds _ _ hx hy => channel_blurPixel_between hc hbounds hx hy⟩

/-- Settles O56: the nine taps are 32768 times the two passes, and so is the divisor. -/
theorem blurAtHalfWidthOneIsFirBlur : Obligations.BlurAtHalfWidthOneIsFirBlur := by
  intro img
  rw [blurImage_of_ne_zero one_ne_zero, firImage]
  refine buildImage_congr fun x y _ _ => ?_
  simp only [firPixel, chan_firAcc_blur3Kernel]
  rfl

/-- Settles O57: the laws of the binomial coefficients of row 2n. -/
theorem blurWeightLaws : Obligations.BlurWeightLaws := fun n =>
  ⟨fun _ hlo hhi => ⟨blurWeight_eq_choose hhi, blurWeight_pos hhi, blurWeight_neg hlo hhi⟩,
    fun _ hlo hhi => blurWeight_succ_le hlo hhi, blurTotal_eq n⟩

/-- Settles O58: each clause from the half-width as the least number of pixels not below the radius. -/
theorem halfWidthOfRadius : Obligations.HalfWidthOfRadius :=
  ⟨halfWidth_eq_zero_iff, fun _ _ hk hlo hhi => halfWidth_eq_succ hk hlo hhi, fun _ hr => halfWidth_saturated hr,
    fun _ _ h => monotone_halfWidth h⟩

end Sys2Proof.Machine
end

section
/-! PROOFS. The exceptions of 60_exceptions.md: which check refuses a command (R211 to R213), the refusal (R219), and the
completion that meets a byte the platform does not admit (R214). -/

namespace Sys2Proof.Machine

open Sys2Proof.Safety

/-! ### Which check fails first -/

/-- INVALID_BUFFER is the first check (60_exceptions.md R211). -/
theorem checkLatch_eq_invalidBuffer {L : Latch} : checkLatch L = some .invalidBuffer ↔
    latW L = 0 ∨ latH L = 0 ∨ latW L * latH L ≠ L.srcLen.toNat := by
  unfold checkLatch
  split_ifs with hbuffer
  · exact iff_of_true rfl hbuffer
  all_goals exact iff_of_false nofun hbuffer

/-- ADDR_RANGE comes after INVALID_BUFFER (60_exceptions.md R212). -/
theorem checkLatch_eq_addrRange {L : Latch} : checkLatch L = some .addrRange ↔
    ¬ (latW L = 0 ∨ latH L = 0 ∨ latW L * latH L ≠ L.srcLen.toNat) ∧
    (2 ^ 32 < latSrc L + latN4 L ∨ 2 ^ 32 < latDst L + latN4 L) := by
  unfold checkLatch
  split_ifs with hbuffer hrange
  · exact iff_of_false nofun fun h => h.1 hbuffer
  · exact iff_of_true rfl ⟨hbuffer, hrange⟩
  all_goals exact iff_of_false nofun fun h => hrange h.2

/-- OVERLAP comes after ADDR_RANGE (60_exceptions.md R213). -/
theorem checkLatch_eq_overlap {L : Latch} : checkLatch L = some .overlap ↔
    ¬ (latW L = 0 ∨ latH L = 0 ∨ latW L * latH L ≠ L.srcLen.toNat) ∧
    ¬ (2 ^ 32 < latSrc L + latN4 L ∨ 2 ^ 32 < latDst L + latN4 L) ∧
    latSrc L < latDst L + latN4 L ∧ latDst L < latSrc L + latN4 L := by
  unfold checkLatch
  split_ifs with hbuffer hrange hoverlap
  · exact iff_of_false nofun fun h => h.1 hbuffer
  · exact iff_of_false nofun fun h => h.2.1 hrange
  · exact iff_of_true rfl ⟨hbuffer, hrange, hoverlap⟩
  · exact iff_of_false nofun fun h => hoverlap h.2.2

/-- The condition of INVALID_BUFFER on the live registers (60_exceptions.md R211). -/
theorem invalidBuffer_takeLatch {w : Word} {s : State} :
    (latW (takeLatch w s) = 0 ∨ latH (takeLatch w s) = 0 ∨
      latW (takeLatch w s) * latH (takeLatch w s) ≠ (takeLatch w s).srcLen.toNat) ↔
    s.width = 0#16 ∨ s.height = 0#16 ∨ s.width.toNat * s.height.toNat ≠ s.srcLen.toNat :=
  or_congr latW_takeLatch_eq_zero (or_congr latH_takeLatch_eq_zero Iff.rfl)

/-- Live registers that pass INVALID_BUFFER (60_exceptions.md R211). -/
theorem not_invalidBuffer_takeLatch {w : Word} {s : State} (hwidth : s.width ≠ 0#16) (hheight : s.height ≠ 0#16)
    (hlen : s.width.toNat * s.height.toNat = s.srcLen.toNat) :
    ¬ (latW (takeLatch w s) = 0 ∨ latH (takeLatch w s) = 0 ∨
      latW (takeLatch w s) * latH (takeLatch w s) ≠ (takeLatch w s).srcLen.toNat) :=
  mt invalidBuffer_takeLatch.1 (not_or.2 ⟨hwidth, not_or.2 ⟨hheight, not_not.2 hlen⟩⟩)

/-! ### Refusal -/

/-- What the refusal of `w` leaves from `s`: the word, the error, BUSY = 0 and no latch (60_exceptions.md R219). -/
def refused (w : Word) (e : ErrorCode) (s : State) : State :=
  { s with lastCmd := w, done := false, err := true, errcode := errorCode e, busy := false, lat := none }

/-- A command whose first failed check is `e` is refused with `e` (40_command.md R132). -/
theorem exec_refused {i : Instr} {s : State} {e : ErrorCode} (hturn : s.turn = .host) (hidle : s.busy = false)
    (hcheck : checkLatch (takeLatch (encode i) s) = some e) : exec i s = .next (refused (encode i) e s) := by
  rw [exec_host hturn, issueCommand, hidle, acceptCommand, hcheck]
  rfl

theorem errorCode_injective : Function.Injective errorCode := by
  intro e e' h
  cases e <;> cases e' <;> simp [errorCode] at h ⊢

/-- An idle unit reports an error only when that error's check is the first to fail (40_command.md R132). -/
theorem checkLatch_of_errcode {i : Instr} {s t : State} {e : ErrorCode} (hturn : s.turn = .host) (hidle : s.busy = false)
    (hexec : exec i s = .next t) (hcode : t.errcode = errorCode e) : checkLatch (takeLatch (encode i) s) = some e := by
  rw [exec_host hturn] at hexec
  rcases issueCommand_cases (encode i) s with ⟨hbusy, -⟩ | ⟨-, -, -, hnext⟩ | ⟨-, e', hcheck, -, hnext⟩ | ⟨-, -, -, hfault⟩
  · rw [hidle] at hbusy; cases hbusy
  · rw [hexec] at hnext; cases hnext
    exact absurd hcode.symm (errorCode_ne_zero e).1
  · rw [hexec] at hnext; cases hnext
    rw [hcheck, errorCode_injective hcode]
  · rw [hexec] at hfault; cases hfault

/-! ### Bus error -/

/-- A running command that meets a byte the platform does not admit, whatever its engine (40_command.md R134). -/
theorem exec_busError {i : Instr} {s : State} {L : Latch} (hturn : s.turn = .unit) (hbusy : s.busy = true)
    (hlat : s.lat = some L) (hdevice : touchesDevice s L = false) (hadmitted : allAdmitted s L = false) :
    exec i s = .next (busErrorCommand L s) := by
  obtain ⟨F, hF, -⟩ := exec_eq_runCommand i
  rw [hF, runCommand, hturn]
  exact (completeCommand_running hbusy hlat).trans (by rw [hdevice, hadmitted]; rfl)

/-! ### The obligations -/

/-- Settles O36: the error is raised over the scrambled output range. -/
theorem busErrorEndsTheCommand : Obligations.BusErrorEndsTheCommand := by
  intro i s L hturn hbusy hlat hmem hdevice hbad
  obtain ⟨b, hb, hnot⟩ := hbad
  have hadmitted : allAdmitted s L = false := Bool.eq_false_iff.2 fun hall =>
    Bool.eq_false_iff.1 hnot (allAdmitted_iff.1 hall b hb)
  refine ⟨_, exec_busError hturn hbusy hlat hdevice hadmitted, rfl, fun a ho hok => ?_, fun a hkeep => ?_⟩
  · rw [busErrorCommand_mem, read_scrambleOutput L hmem, if_pos ⟨ho, hok⟩]
  · have hout : ¬ (inOutput L a = true ∧ memOk s.platform a = true) := fun ⟨ho, hok⟩ =>
      hkeep.elim (Bool.eq_false_iff.1 · ho) (Bool.eq_false_iff.1 · hok)
    rw [busErrorCommand_mem, read_scrambleOutput L hmem, if_neg hout]

/-- Settles O23: the hypothesis is the first check on the live registers. -/
theorem invalidBufferIsRefused : Obligations.InvalidBufferIsRefused := fun _ _ hturn hidle hbad =>
  exec_refused hturn hidle (checkLatch_eq_invalidBuffer.2 (invalidBuffer_takeLatch.2 hbad))

/-- Settles O24: the second check on the live registers decides both clauses. -/
theorem addressRangeIsRefused : Obligations.AddressRangeIsRefused := by
  refine ⟨fun i s hturn hidle hwidth hheight hlen hrange => ?_, fun i s hturn hidle hsrc hdst t hexec hcode => ?_⟩
  · refine exec_refused (e := .addrRange) hturn hidle
      (checkLatch_eq_addrRange.2 ⟨not_invalidBuffer_takeLatch hwidth hheight hlen, ?_⟩)
    rwa [latSrc_takeLatch, latDst_takeLatch, latN4_takeLatch]
  · have hcheck := checkLatch_of_errcode (e := .addrRange) hturn hidle hexec hcode
    rw [checkLatch_eq_addrRange, latSrc_takeLatch, latDst_takeLatch, latN4_takeLatch] at hcheck
    omega

/-- Settles O25: the third check on the live registers decides both clauses. -/
theorem overlapIsRefused : Obligations.OverlapIsRefused := by
  refine ⟨fun i s hturn hidle hwidth hheight hlen hsrc hdst hlow hhigh => ?_,
    fun i s hturn hidle hdisjoint t hexec hcode => ?_⟩
  · refine exec_refused (e := .overlap) hturn hidle
      (checkLatch_eq_overlap.2 ⟨not_invalidBuffer_takeLatch hwidth hheight hlen, ?_⟩)
    rw [latSrc_takeLatch, latDst_takeLatch, latN4_takeLatch]
    omega
  · have hcheck := checkLatch_of_errcode (e := .overlap) hturn hidle hexec hcode
    rw [checkLatch_eq_overlap, latSrc_takeLatch, latDst_takeLatch, latN4_takeLatch] at hcheck
    omega

end Sys2Proof.Machine
end

section
/-! PROOFS. Reset and bounded progress of 70_reset_and_hazards.md: what a reset sets, leaves alone and abandons (R240, R242), and
the completion that every interleaving of host moves reaches (R253). -/

namespace Sys2Proof.Machine

open Sys2Proof.Safety

/-! ### What a reset abandons -/

/-- A command runs, or there is nothing that a reset abandons. -/
theorem running_or_idle (s : State) : (∃ L, s.busy = true ∧ s.lat = some L) ∨ (s.busy = false ∨ s.lat = none) := by
  cases hbusy : s.busy <;> cases hlat : s.lat <;> simp

theorem abandonedMemory_running {s : State} {L : Latch} (hbusy : s.busy = true) (hlat : s.lat = some L) :
    abandonedMemory s = scrambleOutput s L := by
  simp only [abandonedMemory, hbusy, hlat]

theorem abandonedNotes_running {s : State} {L : Latch} (hbusy : s.busy = true) (hlat : s.lat = some L) :
    abandonedNotes s = settleNotes s L := by
  simp only [abandonedNotes, hbusy, hlat]

theorem abandonedMemory_idle {s : State} (hidle : s.busy = false ∨ s.lat = none) : abandonedMemory s = s.mem := by
  unfold abandonedMemory
  split
  case h_1 hbusy hlat => simp [hbusy, hlat] at hidle
  all_goals rfl

theorem abandonedNotes_idle {s : State} (hidle : s.busy = false ∨ s.lat = none) : abandonedNotes s = s.unseen := by
  unfold abandonedNotes
  split
  case h_1 hbusy hlat => simp [hbusy, hlat] at hidle
  all_goals rfl

/-- An admitted byte of the running command's output range reads as the draw's after a reset (log 8). -/
theorem read_abandonedMemory_of_output {s : State} {L : Latch} {a : Nat} (hm : s.mem.wf = true) (hbusy : s.busy = true)
    (hlat : s.lat = some L) (hout : inOutput L a = true) (hok : memOk s.platform a = true) :
    (abandonedMemory s).read a = Config.freeByte s.draws a := by
  rw [abandonedMemory_running hbusy hlat, read_scrambleOutput L hm, if_pos ⟨hout, hok⟩]

/-- Every other byte reads as before the reset (70_reset_and_hazards.md R240). -/
theorem read_abandonedMemory_of_kept {s : State} {a : Nat} (hm : s.mem.wf = true)
    (hkept : ¬ ∃ L, s.busy = true ∧ s.lat = some L ∧ inOutput L a = true ∧ memOk s.platform a = true) :
    (abandonedMemory s).read a = s.mem.read a := by
  obtain ⟨L, hbusy, hlat⟩ | hidle := running_or_idle s
  · rw [abandonedMemory_running hbusy hlat, read_scrambleOutput L hm, if_neg fun h => hkept ⟨L, hbusy, hlat, h⟩]
  · rw [abandonedMemory_idle hidle]

/-! ### What a reset sets and leaves alone -/

/-- The registers after a reset are those of `State.reset` (10_state.md R44). -/
theorem registersAtReset_resetUnit (s : State) : RegistersAtReset (resetUnit s) :=
  { registersAtReset_reset with }

/-- A reset keeps the platform, the host agent and memory but for what it abandons (70_reset_and_hazards.md R240). -/
theorem keptByReset_resetUnit {s : State} (hm : s.mem.wf = true) : KeptByReset s (resetUnit s) where
  platform := rfl
  prog := rfl
  rdata := rfl
  unseen := abandonedNotes_idle
  settled _ := abandonedNotes_running
  memory _ := read_abandonedMemory_of_kept hm
  abandoned _ _ := read_abandonedMemory_of_output hm

/-- A reset looks at neither the event nor the turn that the step takes it from. -/
theorem keptByReset_resetUnit_of_move {s : State} (events : List Event) (agent : Agent) (hm : s.mem.wf = true) :
    KeptByReset s (resetUnit { s with sched := events, turn := agent }) :=
  { keptByReset_resetUnit (s := { s with sched := events, turn := agent }) hm with }

theorem step_resetInput {s : State} {rest : List Event} (hsched : s.sched = .resetInput :: rest) :
    step s = .next (resetUnit { s with sched := rest }) := by
  simp only [step, agentStep, hsched]

/-- A CTRL write with bit 1 = 1 is a reset, whatever else it holds (10_state.md R23, 70_reset_and_hazards.md R242). -/
theorem step_softReset {s : State} {v : Word} (hv : v.getLsbD 1 = true) :
    step (hostDoes s (asmWr s.platform .ctrl v)) = .next (resetUnit { s with turn := .host }) := by
  rw [step_hostDoes_wr s v (by decide), writeReg, writeCtrl, if_pos hv]

/-! ### The interleaving -/

theorem writeReg_sched (r : Reg) (v : Word) (s : State) : (writeReg r v s).sched = s.sched := by
  cases r with
  | ctrl => rw [writeReg, writeCtrl]; split <;> rfl
  | _ => rfl

theorem issueCommand_sched {w : Word} {s t : State} (h : issueCommand w s = .next t) : t.sched = s.sched := by
  rcases issueCommand_cases w s with ⟨-, he⟩ | ⟨-, -, -, he⟩ | ⟨-, e, -, -, he⟩ | ⟨-, -, -, he⟩ <;>
    rw [h] at he <;> cases he <;> rfl

/-- No host statement looks at the interleaving or changes it. -/
theorem hostStatement_sched {op : HostOp} {s t : State}
    (h : hostStatement (fun w s => exec (decode w) s) op s = .next t) (hturn : s.turn = .host) : t.sched = s.sched := by
  cases op with
  | regWrite addr size data =>
    simp only [hostStatement, hostRegWrite] at h
    split at h
    · cases h
    · rw [exec_host hturn] at h
      exact issueCommand_sched h
    · cases h
      exact writeReg_sched _ data s
  | regRead addr size =>
    simp only [hostStatement, hostRegRead] at h
    split at h <;> cases h
    rfl
  | poll addr mask val =>
    simp only [hostStatement, hostPoll] at h
    split at h
    · cases h
    · split at h <;> cases h <;> rfl
  | memWrite addr size data =>
    simp only [hostStatement, hostMemWrite] at h
    split_ifs at h
    cases h
    rfl
  | memRead addr size =>
    simp only [hostStatement, hostMemRead] at h
    split_ifs at h
    cases h
    rfl
  | fence =>
    simp only [hostStatement, hostFence] at h
    split_ifs at h
    cases h
    rfl

/-- Every step takes its event off the interleaving, and nothing else (00_scope.md R15; log 2). -/
theorem step_sched {s t : State} (h : step s = .next t) : t.sched = s.sched.tail := by
  rcases step_cases h with ⟨rest, hsched, rfl⟩ | ⟨L, hbusy, hlat, hexec⟩ | ⟨agent, rfl⟩ | ⟨op, ops, -, hhost⟩
  · rw [hsched]; rfl
  · obtain ⟨-, ⟨-, out, rfl, -⟩ | ⟨-, rfl⟩⟩ := exec_unit_cases (s := afterMove s .unit s.prog) rfl hbusy hlat hexec <;> rfl
  · rfl
  · exact hostStatement_sched hhost rfl

/-! ### Progress of the running command -/

/-- A step that leaves BUSY = 1 keeps the latch of the running command (10_state.md R40). -/
theorem lat_of_step_busy {s t : State} (hstep : step s = .next t) (hbusy : s.busy = true) (ht : t.busy = true) :
    t.lat = s.lat := by
  cases stepEffect_of_step hstep with
  | hardReset | softReset | finish | busError => subst t; cases ht
  | drop | clear => subst t; rfl
  | accept _ _ _ hidle | refuse _ _ _ hidle => rw [hbusy] at hidle; cases hidle
  | quiet hsame => exact hsame.lat

/-- With no event left the next step of a running command is its completion (log 2). -/
theorem busy_of_step_exhausted {s t : State} {L : Latch} (hstep : step s = .next t) (hbusy : s.busy = true)
    (hlat : s.lat = some L) (hsched : s.sched = []) : t.busy = false := by
  rw [stepRunsLatchedCommand.2 s L hbusy hlat hsched] at hstep
  exact (exec_unit_ends rfl hstep hbusy hlat).1

/-- A run of `k + 1` steps that stops nowhere is a step and a run of `k` steps. -/
theorem run_succ_eq_next {k : Nat} {s t : State} : Host.Core.run Sys2Proof.core (k + 1) s = .next t ↔
    ∃ s', step s = .next s' ∧ Host.Core.run Sys2Proof.core k s' = .next t := by
  cases hstep : step s <;> simp [Host.Core.run, show Sys2Proof.core.step s = _ from hstep]

theorem run_one_eq_next {s t : State} : Host.Core.run Sys2Proof.core 1 s = .next t ↔ step s = .next t := by
  refine run_succ_eq_next.trans ⟨?_, fun hstep => ⟨t, hstep, rfl⟩⟩
  rintro ⟨s', hstep, ⟨⟩⟩
  exact hstep

/-! ### The obligations -/

/-- Settles O8, by induction on the host moves left: a step that leaves BUSY = 1 keeps the latch and takes one move off, and
with none left the unit completes. -/
theorem completionIsReached : Obligations.CompletionIsReached := by
  intro n
  induction n with
  | zero =>
    intro s L hbusy hlat hsched
    exact ⟨1, le_rfl, fun t hrun => busy_of_step_exhausted (run_one_eq_next.1 hrun) hbusy hlat hsched⟩
  | succ n ih =>
    intro s L hbusy hlat hsched
    by_cases hrunning : ∃ s', step s = .next s' ∧ s'.busy = true
    · obtain ⟨s', hstep, hbusy'⟩ := hrunning
      have hlat' : s'.lat = some L := (lat_of_step_busy hstep hbusy hbusy').trans hlat
      have hsched' : s'.sched = List.replicate n .hostMove := by rw [step_sched hstep, hsched]; rfl
      obtain ⟨k, hk, hends⟩ := ih s' L hbusy' hlat' hsched'
      refine ⟨k + 1, Nat.succ_le_succ hk, fun t hrun => ?_⟩
      obtain ⟨u, hu, hrun⟩ := run_succ_eq_next.1 hrun
      cases hstep.symm.trans hu
      exact hends t hrun
    · refine ⟨1, by omega, fun t hrun => ?_⟩
      exact Bool.eq_false_iff.2 fun ht => hrunning ⟨t, run_one_eq_next.1 hrun, ht⟩

/-- Settles O9: the step of the reset input is `resetUnit`. -/
theorem hardwareResetSetsEveryRegister : Obligations.HardwareResetSetsEveryRegister := fun s rest hsched hm =>
  ⟨_, step_resetInput hsched, registersAtReset_resetUnit _, keptByReset_resetUnit_of_move rest s.turn hm, rfl⟩

/-- Settles O10: with bit 1 = 1 the CTRL write is `resetUnit`. -/
theorem softResetSetsEveryRegister : Obligations.SoftResetSetsEveryRegister := fun s _ hv hm =>
  ⟨_, step_softReset hv, registersAtReset_resetUnit _, keptByReset_resetUnit_of_move s.sched .host hm, rfl⟩

end Sys2Proof.Machine
end
